-- ==== Sys2Proof/Word.lean ====
section
/-! DEFINITION. The Word of the core (00_scope.md R5, R8): W = 64 bits. -/

namespace Sys2Proof

/-- A Word: every register and every memory cell holds one (00_scope.md R8). -/
abbrev Word := BitVec 64

end Sys2Proof
end

