-- ==== Sys2Proof/Config.lean ====
section
/-! DEFINITION. The parameters of 00_scope.md R5. `wordBits` is decided; MEM_WORDS, DEFECT_MODE and OPCODE_MAP are
collected in `Params`, which State carries so that a claim quantifies over them (log 5, 6, 7); the bits of NAN_DRAW
come from a free value (log 8). -/

namespace Sys2Proof

/-- `WORD_BITS`, written W: 64 (00_scope.md R5, decision D1). -/
def Config.wordBits : Nat := 64

/-- The free value behind `NAN_DRAW` (00_scope.md R5, 42_float.md R130): nothing is known of its bits. The n-th NaN
result of a run takes its sign and its payload from the n-th Word. DESIGN CHOICE (log 8), safe. What is not free, the quiet bit, is set by `Machine.nanDraw`, where the log says so. -/
opaque Config.freeNanBits : Nat → Word

/-- `DEFECT_MODE` (00_scope.md R5): `literal` reproduces the two defects the source flags, `corrected` gives the
meaning of the catalog (90_conflicts.md C2, C3). -/
inductive DefectMode where
  | literal
  | corrected
deriving DecidableEq, Repr

/-- `OPCODE_MAP` (00_scope.md R5, 30_encoding.md R76): the opcode values in the order of the catalog, so that the
entry at position n is the value of the n-th instruction of R76. -/
abbrev OpcodeMap := List Word

/-- The parameters of one core, fixed for its life (70_reset_and_hazards.md R330). -/
structure Params where
  /-- `MEM_WORDS`, the memory capacity in Words. -/
  memWords : Word
  /-- `DEFECT_MODE`. -/
  defectMode : DefectMode
  /-- `OPCODE_MAP`. -/
  opcodeMap : OpcodeMap
deriving DecidableEq, Repr

/-- `MEM_WORDS = floor(bytes / (W/8))` (00_scope.md R6). -/
def Config.memWordsOfBytes (bytes : Nat) : Nat := bytes / (Config.wordBits / 8)

end Sys2Proof
end

