-- ==== Sys2Proof/Syntax.lean ====
section
/-! DEFINITION. The instructions: one constructor for each of the 59 rows of spec/opcode_table.json, in the order of
30_encoding.md R76. Only the four immediate loads (format F2) carry an operand; every other operand is implicit in the
opcode (R71, R74). -/

namespace Sys2Proof

/-- An instruction of the catalog (30_encoding.md R75, R76). An F2 instruction carries its immediate Word; by R73 any
Word is a legal immediate, so every value of this type is a well-formed instruction. -/
inductive Instr where
  -- 40_stack.md
  | push  -- PUSH, R100
  | pop  -- POP, R101
  -- 41_integer.md
  | inc  -- INC, R110
  | dec  -- DEC, R111
  | neg  -- NEG, R112
  | add  -- ADD, R113
  | sub  -- SUB, R114
  | mul  -- MUL, R115
  | div  -- DIV, R116
  -- 42_float.md
  | fneg  -- FNEG, R131
  | fadd  -- FADD, R132
  | fsub  -- FSUB, R133
  | fmul  -- FMUL, R134
  | fdiv  -- FDIV, R135
  -- 43_bitwise.md
  | and  -- AND, R150
  | or  -- OR, R151
  | xor  -- XOR, R152
  | not  -- NOT, R153
  | shl  -- SHL, R154
  | shr  -- SHR, R155
  -- 44_jumps.md
  | jmp  -- JMP, R171
  | je  -- JE, R172
  | jne  -- JNE, R173
  | jg  -- JG, R174
  | jge  -- JGE, R175
  | jl  -- JL, R176
  | jle  -- JLE, R177
  | ja  -- JA, R178
  | jae  -- JAE, R179
  | jb  -- JB, R180
  | jbe  -- JBE, R181
  | fjg  -- FJG, R182
  | fjge  -- FJGE, R183
  | fjl  -- FJL, R184
  | fjle  -- FJLE, R185
  -- 45_call_ret.md
  | call  -- CALL, R200
  | ret  -- RET, R201
  -- 46_syscall.md
  | syscall  -- SYSCALL, R210
  -- 47_move.md
  | moveOpToAx (imm : Word)  -- MOVE_OP_TO_AX, R240
  | moveOpToBx (imm : Word)  -- MOVE_OP_TO_BX, R241
  | moveOpToCx (imm : Word)  -- MOVE_OP_TO_CX, R242
  | moveOpToDx (imm : Word)  -- MOVE_OP_TO_DX, R243
  | moveAxToBx  -- MOVE_AX_TO_BX, R250
  | moveAxToCx  -- MOVE_AX_TO_CX, R251
  | moveAxToDx  -- MOVE_AX_TO_DX, R252
  | moveBxToAx  -- MOVE_BX_TO_AX, R253
  | moveBxToCx  -- MOVE_BX_TO_CX, R254
  | moveBxToDx  -- MOVE_BX_TO_DX, R255
  | moveCxToAx  -- MOVE_CX_TO_AX, R256
  | moveCxToBx  -- MOVE_CX_TO_BX, R257
  | moveCxToDx  -- MOVE_CX_TO_DX, R258
  | moveDxToAx  -- MOVE_DX_TO_AX, R259
  | moveDxToBx  -- MOVE_DX_TO_BX, R260
  | moveDxToCx  -- MOVE_DX_TO_CX, R261
  -- 48_convert.md
  | cwtor  -- CWTOR, R270
  | cswtor  -- CSWTOR, R271
  | crtow  -- CRTOW, R272
  | crtosw  -- CRTOSW, R273
  -- 49_reserved.md
  | deref  -- DEREF, R280
deriving DecidableEq, Repr

end Sys2Proof
end

