-- ==== Sys2Proof/Decode.lean ====
section
/-! DEFINITION. Decoding and encoding (30_encoding.md R70 to R81). The decoder reads Words, not bytes: the unit of
fetch is the Word and has no byte order (20_memory.md R54). It is total on any list of Words and rejects by name. -/

namespace Sys2Proof

/-- What an opcode asks for (30_encoding.md R71): `f1` is a whole instruction, `f2` waits for its immediate Word. -/
inductive Shape where
  | f1 (i : Instr)
  | f2 (build : Word → Instr)

/-- Why the decoder gives no instruction. -/
inductive DecodeError where
  /-- There is no Word to decode. -/
  | noWord
  /-- The opcode Word is not a value of the opcode map (30_encoding.md R78). -/
  | unknownOpcode (op : Word)
  /-- An F2 opcode stands with no Word after it (30_encoding.md R72). -/
  | missingImmediate
deriving DecidableEq, Repr

/-- The default `OPCODE_MAP` (30_encoding.md R76), family by family. -/
def defaultOpcodeMap : OpcodeMap :=
  [0x00, 0x01] ++
  [0x02, 0x03, 0x04, 0x05, 0x06, 0x07, 0x08] ++
  [0x09, 0x0A, 0x0B, 0x0C, 0x0D] ++
  [0x0E, 0x0F, 0x10, 0x11, 0x12, 0x13] ++
  [0x14, 0x15, 0x16, 0x17, 0x18, 0x19, 0x1A, 0x1B, 0x1C, 0x1D, 0x1E, 0x1F, 0x20, 0x21, 0x22] ++
  [0x23, 0x24] ++
  [0x25] ++
  [0x26, 0x27, 0x28, 0x29, 0x2A, 0x2B, 0x2C, 0x2D, 0x2E, 0x2F, 0x30, 0x31, 0x32, 0x33, 0x34, 0x35] ++
  [0x36, 0x37, 0x38, 0x39] ++
  [0x3A]

/-- The instruction at each position of the catalog of 30_encoding.md R76. -/
def catalog : Nat → Option Shape
  | 0 => some (.f1 .push)
  | 1 => some (.f1 .pop)
  | 2 => some (.f1 .inc)
  | 3 => some (.f1 .dec)
  | 4 => some (.f1 .neg)
  | 5 => some (.f1 .add)
  | 6 => some (.f1 .sub)
  | 7 => some (.f1 .mul)
  | 8 => some (.f1 .div)
  | 9 => some (.f1 .fneg)
  | 10 => some (.f1 .fadd)
  | 11 => some (.f1 .fsub)
  | 12 => some (.f1 .fmul)
  | 13 => some (.f1 .fdiv)
  | 14 => some (.f1 .and)
  | 15 => some (.f1 .or)
  | 16 => some (.f1 .xor)
  | 17 => some (.f1 .not)
  | 18 => some (.f1 .shl)
  | 19 => some (.f1 .shr)
  | 20 => some (.f1 .jmp)
  | 21 => some (.f1 .je)
  | 22 => some (.f1 .jne)
  | 23 => some (.f1 .jg)
  | 24 => some (.f1 .jge)
  | 25 => some (.f1 .jl)
  | 26 => some (.f1 .jle)
  | 27 => some (.f1 .ja)
  | 28 => some (.f1 .jae)
  | 29 => some (.f1 .jb)
  | 30 => some (.f1 .jbe)
  | 31 => some (.f1 .fjg)
  | 32 => some (.f1 .fjge)
  | 33 => some (.f1 .fjl)
  | 34 => some (.f1 .fjle)
  | 35 => some (.f1 .call)
  | 36 => some (.f1 .ret)
  | 37 => some (.f1 .syscall)
  | 38 => some (.f2 .moveOpToAx)
  | 39 => some (.f2 .moveOpToBx)
  | 40 => some (.f2 .moveOpToCx)
  | 41 => some (.f2 .moveOpToDx)
  | 42 => some (.f1 .moveAxToBx)
  | 43 => some (.f1 .moveAxToCx)
  | 44 => some (.f1 .moveAxToDx)
  | 45 => some (.f1 .moveBxToAx)
  | 46 => some (.f1 .moveBxToCx)
  | 47 => some (.f1 .moveBxToDx)
  | 48 => some (.f1 .moveCxToAx)
  | 49 => some (.f1 .moveCxToBx)
  | 50 => some (.f1 .moveCxToDx)
  | 51 => some (.f1 .moveDxToAx)
  | 52 => some (.f1 .moveDxToBx)
  | 53 => some (.f1 .moveDxToCx)
  | 54 => some (.f1 .cwtor)
  | 55 => some (.f1 .cswtor)
  | 56 => some (.f1 .crtow)
  | 57 => some (.f1 .crtosw)
  | 58 => some (.f1 .deref)
  | _ => none

/-- The position of an instruction in the catalog of 30_encoding.md R76. -/
def Instr.index : Instr → Nat
  | .push => 0
  | .pop => 1
  | .inc => 2
  | .dec => 3
  | .neg => 4
  | .add => 5
  | .sub => 6
  | .mul => 7
  | .div => 8
  | .fneg => 9
  | .fadd => 10
  | .fsub => 11
  | .fmul => 12
  | .fdiv => 13
  | .and => 14
  | .or => 15
  | .xor => 16
  | .not => 17
  | .shl => 18
  | .shr => 19
  | .jmp => 20
  | .je => 21
  | .jne => 22
  | .jg => 23
  | .jge => 24
  | .jl => 25
  | .jle => 26
  | .ja => 27
  | .jae => 28
  | .jb => 29
  | .jbe => 30
  | .fjg => 31
  | .fjge => 32
  | .fjl => 33
  | .fjle => 34
  | .call => 35
  | .ret => 36
  | .syscall => 37
  | .moveOpToAx _ => 38
  | .moveOpToBx _ => 39
  | .moveOpToCx _ => 40
  | .moveOpToDx _ => 41
  | .moveAxToBx => 42
  | .moveAxToCx => 43
  | .moveAxToDx => 44
  | .moveBxToAx => 45
  | .moveBxToCx => 46
  | .moveBxToDx => 47
  | .moveCxToAx => 48
  | .moveCxToBx => 49
  | .moveCxToDx => 50
  | .moveDxToAx => 51
  | .moveDxToBx => 52
  | .moveDxToCx => 53
  | .cwtor => 54
  | .cswtor => 55
  | .crtow => 56
  | .crtosw => 57
  | .deref => 58

/-- The operand Words of an instruction: the immediate of an F2 instruction, nothing for F1 (30_encoding.md R71). -/
def Instr.operandWords : Instr → List Word
  | .moveOpToAx imm => [imm]
  | .moveOpToBx imm => [imm]
  | .moveOpToCx imm => [imm]
  | .moveOpToDx imm => [imm]
  | .push | .pop => []
  | .inc | .dec | .neg | .add | .sub | .mul | .div => []
  | .fneg | .fadd | .fsub | .fmul | .fdiv => []
  | .and | .or | .xor | .not | .shl | .shr => []
  | .jmp | .je | .jne | .jg | .jge | .jl | .jle | .ja | .jae | .jb | .jbe | .fjg | .fjge | .fjl | .fjle => []
  | .call | .ret => []
  | .syscall => []
  | .moveAxToBx | .moveAxToCx | .moveAxToDx | .moveBxToAx | .moveBxToCx | .moveBxToDx | .moveCxToAx
    | .moveCxToBx | .moveCxToDx | .moveDxToAx | .moveDxToBx | .moveDxToCx => []
  | .cwtor | .cswtor | .crtow | .crtosw => []
  | .deref => []

/-- The position in `map` of the opcode value `op` (30_encoding.md R70: all 64 bits are compared). -/
def opcodeIndex : (map : OpcodeMap) → (op : Word) → Option Nat
  | [], _ => none
  | v :: map, op => if op = v then some 0 else (opcodeIndex map op).map (· + 1)

/-- `decode(op)` of 30_encoding.md R76: what the opcode Word asks for, or none. -/
def decodeOpcode (map : OpcodeMap) (op : Word) : Option Shape :=
  (opcodeIndex map op).bind catalog

/-- The instruction at the head of a list of Words, with the Words after it (30_encoding.md R70 to R73, R78). The
length is decided by the opcode Word alone (R72). -/
def decode (map : OpcodeMap) : List Word → Except DecodeError (Instr × List Word)
  | [] => .error .noWord
  | op :: rest =>
    match decodeOpcode map op with
    | none => .error (.unknownOpcode op)
    | some (.f1 i) => .ok (i, rest)
    | some (.f2 build) =>
      match rest with
      | [] => .error .missingImmediate
      | imm :: rest => .ok (build imm, rest)

/-- The opcode Word of an instruction under `map` (30_encoding.md R76). -/
def opcodeWord (map : OpcodeMap) (i : Instr) : Word := map.getD i.index 0

/-- The Words of an instruction: its opcode Word, then the immediate of an F2 instruction (30_encoding.md R71). -/
def encode (map : OpcodeMap) (i : Instr) : List Word := opcodeWord map i :: i.operandWords

/-- The two Words a table row's bits stand for: bit 0 is the least significant bit of the first Word, the second Word
is bits 127..64, and every bit at `nbits` or above is 0. -/
def tableWords (nbits w : Nat) : List Word :=
  let v := w % 2 ^ nbits
  [BitVec.ofNat 64 v, BitVec.ofNat 64 (v / 2 ^ 64)]

/-- The instruction the decoder reads, under the default opcode map, from an instruction whose bits are `w`. -/
def decodeTableWord (nbits w : Nat) : Option Instr :=
  match decode defaultOpcodeMap (tableWords nbits w) with
  | .ok (i, _) => some i
  | .error _ => none

end Sys2Proof
end

