-- ==== Sys2Proof/WellFormed.lean ====
section
/-! DEFINITION. The checks of 00_scope.md R5 on a core's parameters. Every value of `Instr` is a well-formed
instruction (30_encoding.md R73: any Word value is a legal immediate), so there is no check on instructions. The
checks on what a draw or the host supplies stand beside their users: `isQuietNaN` in Machine/Real.lean, `lineOk` in
Machine/Operands.lean. -/

namespace Sys2Proof

/-- `1 <= MEM_WORDS <= floor((2^W - 1) / (W/8))` (00_scope.md R5). -/
def Params.memWordsOk (p : Params) : Bool :=
  decide (1 ≤ p.memWords.toNat) && decide (p.memWords.toNat ≤ (2 ^ Config.wordBits - 1) / (Config.wordBits / 8))

/-- An opcode map gives each of the 59 instructions a value (30_encoding.md R75). -/
def OpcodeMap.complete (map : OpcodeMap) : Bool := decide (map.length = 59)

/-- An opcode map is injective: "no two instructions share a code" (00_scope.md R5). -/
def OpcodeMap.injective (map : OpcodeMap) : Bool := decide map.Nodup

/-- The constraints of 00_scope.md R5 on `OPCODE_MAP`. -/
def OpcodeMap.ok (map : OpcodeMap) : Bool := OpcodeMap.complete map && OpcodeMap.injective map

/-- The constraints of 00_scope.md R5 on a core's parameters. -/
def Params.ok (p : Params) : Bool := p.memWordsOk && OpcodeMap.ok p.opcodeMap

end Sys2Proof
end

