-- ==== Sys2Proof/Machine/State.lean ====
section
/-! DEFINITION. The state of the core (10_state.md R20 to R31): every register, the memory, the run status, the host
channels and the parameters, as plain data; the reasons a step can stop; the state at power-up. -/

namespace Sys2Proof.Machine

/-- The four general registers (10_state.md R20). -/
inductive Reg where
  | ax
  | bx
  | cx
  | dx
deriving DecidableEq, Repr

/-- `RUN_STATE` (10_state.md R28). -/
inductive RunState where
  /-- Power-up: the core waits for `load` (70_reset_and_hazards.md R330). -/
  | reset
  /-- An image is loaded: the core waits for `start` (R331). -/
  | loaded
  /-- Instructions execute (10_state.md R32). -/
  | running
  /-- Syscall 0 waits for its flush (46_syscall.md R216). -/
  | blockedOut
  /-- Syscall 1 waits for a line (46_syscall.md R216). -/
  | blockedIn
  /-- The terminal state, final. -/
  | halted
  /-- A fault was raised, final. -/
  | faulted
deriving DecidableEq, Repr

/-- `FAULT_CAUSE` with the information it records (60_exceptions.md R300). -/
inductive FaultCause where
  /-- Code 0: no fault. -/
  | none
  /-- Code 1: the fetch of a Word not in the opcode map. -/
  | unknownOpcode (op : Word)
  /-- Code 2: SYSCALL with a selector other than 0, 1, 2. -/
  | unknownSyscall (selector : Word)
  /-- Code 3: a memory access at an address at or above MEM_WORDS. -/
  | outOfBounds (address : Word)
  /-- Code 4: an instruction that uses Reals when W is not 64. -/
  | castFailure
  /-- Code 5: a load of more than MEM_WORDS Words. -/
  | imageTooLarge (length : Nat)
  /-- Code 6: DIV by zero. -/
  | divideByZero
  /-- Code 7: SHL or SHR by W or more. -/
  | shiftOverflow (amount : Word)
  /-- Code 8: the fetch of DEREF. -/
  | reservedOpcode (op : Word)
  /-- Code 9: syscall 0 meets a Word that is not a Unicode scalar value. -/
  | invalidCodePoint (word : Word)
deriving DecidableEq, Repr

/-- One entry of the output history (10_state.md R30): a code point, or the mark of a flush. -/
inductive OutEvent where
  | char (c : Word)
  | flush
deriving DecidableEq, Repr

/-- A transaction the host makes on its own (00_scope.md R12). -/
inductive Command where
  /-- `load(words, entry)` (70_reset_and_hazards.md R330). -/
  | load (words : List Word) (entry : Word)
  /-- `start` (R331). -/
  | start
deriving DecidableEq, Repr

/-- Memory: pairs of a word address and the Word there, addresses rising; an address not listed reads as
`Memory.unlisted` (Machine/Memory.lean). A cell is a Word, not a byte: the Word is the unit of address
(20_memory.md R50, R55). DEDUCED (log 1), safe. -/
abbrev Memory := List (Nat × Word)

/-- Every piece of state the spec gives the core (10_state.md; INVENTORY.md lists it with its rules). -/
structure State where
  /-- MEM_WORDS, DEFECT_MODE, OPCODE_MAP (00_scope.md R5): written by no step. -/
  params : Params
  ax : Word
  bx : Word
  cx : Word
  dx : Word
  /-- The instruction pointer (10_state.md R23). -/
  ip : Word
  /-- The stack pointer (10_state.md R25). -/
  sp : Word
  /-- The frame pointer, reserved (10_state.md R26). -/
  fp : Word
  /-- The local pointer, reserved (10_state.md R26). -/
  lp : Word
  /-- The one memory (10_state.md R29). -/
  mem : Memory
  /-- RUN_STATE (10_state.md R28). -/
  runState : RunState
  /-- FAULT_CAUSE (10_state.md R28). -/
  faultCause : FaultCause
  /-- EXIT_VALUE (10_state.md R28). -/
  exitValue : Word
  /-- The output history, oldest first (10_state.md R30). -/
  output : List OutEvent
  /-- The lines the host will deliver to syscall 1, next first (10_state.md R30, READ_LINE_INPUT). -/
  lines : List (List Word)
  /-- How many more flushes the host will acknowledge by `out_ack` (46_syscall.md R216). -/
  acks : Nat
  /-- The `load` and `start` transactions the host will make, next first (00_scope.md R12). -/
  commands : List Command
  /-- The MODEL's own field: how many NaN results have been drawn (log 8). -/
  nanDraws : Nat
deriving DecidableEq, Repr

/-- Why a step could stop outside the spec's states: nothing. Every fault of the spec is a state the core enters
(60_exceptions.md R305), so no step ends this way and the type has no constructor (log 13). Safe. -/
inductive Fault where
deriving DecidableEq, Repr

/-- Why the model would refuse an instruction. -/
inductive Refusal where
  /-- An instruction with no meaning yet, named by its mnemonic. Raised by an arm of `exec` only; no arm raises it
  now. Safe. -/
  | notModelled (mnemonic : String)
deriving DecidableEq, Repr

/-- What a step answers. -/
abbrev Out := Host.Outcome State Fault Refusal

/-- The core at power-up (70_reset_and_hazards.md R330): RUN_STATE = RESET, FAULT_CAUSE = NONE, the output history
empty (R332), DEFECT_MODE and OPCODE_MAP at the spec's defaults. The spec gives no value to the other fields; DESIGN
CHOICE, unsafe: `ax` to `dx` and `ip` are 0, `sp`, `fp` and `lp` hold what `start` will write, MEM_WORDS is 65536,
EXIT_VALUE is 0, the host has nothing to say, no NaN is drawn (log 2, 3, 4, 5, 8, 9, 14). -/
def State.reset : State where
  params := { memWords := 65536, defectMode := .literal, opcodeMap := defaultOpcodeMap }
  ax := 0
  bx := 0
  cx := 0
  dx := 0
  ip := 0
  sp := 65536
  fp := 65536
  lp := 65535
  mem := []
  runState := .reset
  faultCause := .none
  exitValue := 0
  output := []
  lines := []
  acks := 0
  commands := []
  nanDraws := 0

end Sys2Proof.Machine
end

