-- ==== Sys2Proof/Machine/Memory.lean ====
section
/-! DEFINITION. The one memory (20_memory.md R50 to R59): reading and writing a Word, and the canonical form. -/

namespace Sys2Proof.Machine

/-- What an address that is not listed reads as. MEM_INIT is open (20_memory.md R51); a list can hold any contents,
so a claim about every state quantifies over MEM_INIT. DESIGN CHOICE (log 2), unsafe for runs from `State.reset`. -/
def Memory.unlisted : Word := 0

/-- The Word at an address. -/
def Memory.read : Memory → Nat → Word
  | [], _ => Memory.unlisted
  | (b, w) :: m, a => if a = b then w else Memory.read m a

/-- Take an address out of the list, so that it reads as unlisted. -/
def Memory.erase : Memory → Nat → Memory
  | [], _ => []
  | (b, w) :: m, a => if a = b then Memory.erase m a else (b, w) :: Memory.erase m a

/-- Put a Word at its place in the rising order. -/
def Memory.insert : Memory → Nat → Word → Memory
  | [], a, v => [(a, v)]
  | (b, w) :: m, a, v =>
    if a < b then (a, v) :: (b, w) :: m
    else if a = b then (a, v) :: m
    else (b, w) :: Memory.insert m a v

/-- Write a Word. Writing what an unlisted address reads as takes the entry out, so equal memories are equal lists. -/
def Memory.write (m : Memory) (a : Nat) (v : Word) : Memory :=
  if v = Memory.unlisted then Memory.erase m a else Memory.insert m a v

/-- Write Words at consecutive addresses from `a` up. -/
def Memory.writeList : Memory → Nat → List Word → Memory
  | m, _, [] => m
  | m, a, v :: vs => Memory.writeList (Memory.write m a v) (a + 1) vs

/-- Every entry stands at an address of at least `lo`, addresses rise strictly, and no entry holds what an unlisted
address reads as. -/
def Memory.wfFrom : Nat → Memory → Bool
  | _, [] => true
  | lo, (a, v) :: m => decide (lo ≤ a) && decide (v ≠ Memory.unlisted) && Memory.wfFrom (a + 1) m

/-- The canonical form of a memory. -/
def Memory.wf (m : Memory) : Bool := Memory.wfFrom 0 m

/-- Every entry stands at an address below `limit` (20_memory.md R50: there is no other address). -/
def Memory.below (limit : Nat) (m : Memory) : Bool := m.all fun c => decide (c.1 < limit)

end Sys2Proof.Machine
end

