-- ==== Sys2Proof/Machine/Operands.lean ====
section
/-! DEFINITION. The operands of instructions: the general registers, the SignedWord view, the right operand of the
mode-dependent jumps, and the check on a code point. -/

namespace Sys2Proof.Machine

/-- `x[r]`, read (00_scope.md R10). -/
def State.get (s : State) : Reg → Word
  | .ax => s.ax
  | .bx => s.bx
  | .cx => s.cx
  | .dx => s.dx

/-- `x[r] <- v` (00_scope.md R10). -/
def State.set (s : State) (r : Reg) (v : Word) : State :=
  match r with
  | .ax => { s with ax := v }
  | .bx => { s with bx := v }
  | .cx => { s with cx := v }
  | .dx => { s with dx := v }

/-- `sw(v)`, the SignedWord view (00_scope.md R9): `v` below 2^63, else `v - 2^64`. -/
def sw (v : Word) : Int := if v.toNat < 2 ^ 63 then (v.toNat : Int) else (v.toNat : Int) - 2 ^ 64

/-- `trunc_W` of an integer (00_scope.md R8): the non-negative remainder modulo 2^64. -/
def truncW (v : Int) : Word := BitVec.ofInt 64 v

/-- `rhs`, the right operand of JG, JGE, JL, JLE and the float jumps (44_jumps.md R170): `bx` in CORRECTED mode, `ax`
a second time in LITERAL mode. -/
def State.rhs (s : State) : Word :=
  match s.params.defectMode with
  | .corrected => s.bx
  | .literal => s.ax

/-- A Unicode scalar value: at most 0x10FFFF and not in 0xD800 to 0xDFFF (46_syscall.md R212). -/
def isScalarValue (c : Word) : Bool :=
  decide (c.toNat ≤ 0x10FFFF) && !(decide (0xD800 ≤ c.toNat) && decide (c.toNat ≤ 0xDFFF))

/-- The constraint on `READ_LINE_INPUT`: a finite list of Unicode scalar values (00_scope.md R5). -/
def lineOk (line : List Word) : Bool := line.all isScalarValue

end Sys2Proof.Machine
end

