-- ==== Sys2Proof/Machine/Real.lean ====
section
/-! DEFINITION. The Real view of a Word and binary64 arithmetic (00_scope.md R9, R11; 42_float.md R130; 48_convert.md
R270 to R274). Every finite binary64 datum is a whole number of units of 2^-1074, so arithmetic is exact on integers
and rounds once, to nearest with ties to even. Where R130 says only "follow IEEE 754" the IEEE 754 rule is taken:
PRESUMED (log 20). -/

namespace Sys2Proof.Machine

/-- A binary64 datum. `finite neg mag` is `(-1)^neg * mag * 2^-1074`; the sign of a zero is kept. -/
inductive Real64 where
  | finite (neg : Bool) (mag : Nat)
  | inf (neg : Bool)
  | nan (neg : Bool) (fraction : BitVec 52)
deriving DecidableEq, Repr

/-- How many units of 2^-1074 are 1. -/
def unitsPerOne : Nat := 2 ^ 1074

/-- The encoding of infinity without its sign: exponent field 2047, fraction 0. -/
def infBits : Nat := 2047 * 2 ^ 52

/-- `real(v)` (00_scope.md R9): bit 63 is the sign, bits 62:52 the biased exponent, bits 51:0 the fraction. -/
def real (v : Word) : Real64 :=
  let neg := v.msb
  let e := (v.extractLsb' 52 11).toNat
  let f := v.extractLsb' 0 52
  if e = 2047 then (if f = 0 then .inf neg else .nan neg f)
  else if e = 0 then .finite neg f.toNat
  else .finite neg ((2 ^ 52 + f.toNat) * 2 ^ (e - 1))

/-- The encoding, without sign, of `num / den` units rounded to nearest, ties to even, with overflow to infinity
(42_float.md R130). With `2^shift` units as the spacing of the result's binade, the encoding is
`shift * 2^52 + quotient`: for a subnormal the shift is 0, and a carry out of the fraction moves the exponent up. -/
def roundMag (num den : Nat) : Nat :=
  let shift := (num / den).log2 - 52
  let d := den * 2 ^ shift
  let q := num / d
  let r := num % d
  let q := if d < 2 * r ∨ (2 * r = d ∧ q % 2 = 1) then q + 1 else q
  min (shift * 2 ^ 52 + q) infBits

/-- A sign and the 63 other bits as one Word. -/
def packSign (neg : Bool) (mag : Nat) : Word := BitVec.ofNat 64 ((if neg then 2 ^ 63 else 0) + mag)

/-- `bits(f)` (00_scope.md R9): the Word that encodes a datum. -/
def bits : Real64 → Word
  | .finite neg mag => packSign neg (roundMag mag 1)
  | .inf neg => packSign neg infBits
  | .nan neg f => packSign neg (infBits + f.toNat)

/-- A datum is a NaN. -/
def isNaN : Real64 → Bool
  | .nan _ _ => true
  | .finite _ _ | .inf _ => false

/-- The exact value of a sign and a magnitude, in units of 2^-1074. -/
def signedMag (neg : Bool) (mag : Nat) : Int := if neg then -(mag : Int) else (mag : Int)

/-- The datum with its sign flipped (42_float.md R131). -/
def negReal : Real64 → Real64
  | .finite neg mag => .finite (!neg) mag
  | .inf neg => .inf (!neg)
  | .nan neg f => .nan (!neg) f

/-- An exact value in units of 2^-1074, rounded; `zeroNeg` is the sign of an exact zero. -/
def roundInt (zeroNeg : Bool) (v : Int) : Word :=
  if v = 0 then packSign zeroNeg 0 else packSign (decide (v < 0)) (roundMag v.natAbs 1)

/-- `x + y` rounded (42_float.md R130, R132); none when the result is a NaN. An exact zero sum is `-0` when both
operands are negative, else `+0`. -/
def addReal : Real64 → Real64 → Option Word
  | .nan _ _, _ => none
  | .finite _ _, .nan _ _ => none
  | .inf _, .nan _ _ => none
  | .inf a, .inf b => if a = b then some (packSign a infBits) else none
  | .inf a, .finite _ _ => some (packSign a infBits)
  | .finite _ _, .inf b => some (packSign b infBits)
  | .finite a m, .finite b n => some (roundInt (a && b) (signedMag a m + signedMag b n))

/-- `x - y` rounded (42_float.md R130, R133): the sum of `x` and `-y`. -/
def subReal (x y : Real64) : Option Word := addReal x (negReal y)

/-- `x * y` rounded (42_float.md R130, R134); none when the result is a NaN. -/
def mulReal : Real64 → Real64 → Option Word
  | .nan _ _, _ => none
  | .finite _ _, .nan _ _ => none
  | .inf _, .nan _ _ => none
  | .inf a, .inf b => some (packSign (a ^^ b) infBits)
  | .inf a, .finite b n => if n = 0 then none else some (packSign (a ^^ b) infBits)
  | .finite a m, .inf b => if m = 0 then none else some (packSign (a ^^ b) infBits)
  | .finite a m, .finite b n => some (packSign (a ^^ b) (roundMag (m * n) unitsPerOne))

/-- `x / y` rounded (42_float.md R130, R135); none when the result is a NaN. -/
def divReal : Real64 → Real64 → Option Word
  | .nan _ _, _ => none
  | .finite _ _, .nan _ _ => none
  | .inf _, .nan _ _ => none
  | .inf _, .inf _ => none
  | .inf a, .finite b _ => some (packSign (a ^^ b) infBits)
  | .finite a _, .inf b => some (packSign (a ^^ b) 0)
  | .finite a m, .finite b n =>
    if n = 0 then (if m = 0 then none else some (packSign (a ^^ b) infBits))
    else some (packSign (a ^^ b) (roundMag (m * unitsPerOne) n))

/-- `x <f y` (00_scope.md R11): false when either side is a NaN. -/
def ltReal : Real64 → Real64 → Bool
  | .nan _ _, _ => false
  | .finite _ _, .nan _ _ => false
  | .inf _, .nan _ _ => false
  | .inf a, .inf b => a && !b
  | .inf a, .finite _ _ => a
  | .finite _ _, .inf b => !b
  | .finite a m, .finite b n => decide (signedMag a m < signedMag b n)

/-- `x <=f y` (00_scope.md R11): false when either side is a NaN. -/
def leReal (x y : Real64) : Bool := !isNaN x && !isNaN y && !ltReal y x

/-- `bits(round_to_nearest_even(v))` of an integer (48_convert.md R270, R271). -/
def ofInteger (v : Int) : Word := roundInt false (v * unitsPerOne)

/-- `trunc(f)`, toward zero, clamped to `[lo, hi]`, and 0 for a NaN (48_convert.md R272, R273). -/
def truncClamp (lo hi : Int) : Real64 → Int
  | .nan _ _ => 0
  | .inf neg => if neg then lo else hi
  | .finite neg mag => max lo (min hi (signedMag neg (mag / unitsPerOne)))

/-- The constraint on `NAN_DRAW` in R5 (00_scope.md) and R130 (42_float.md), a quiet NaN of binary64: the exponent
field all ones and the top bit of the fraction set. -/
def isQuietNaN (w : Word) : Bool := decide (w &&& 0x7FF8000000000000 = 0x7FF8000000000000)

/-- `NAN_DRAW` (00_scope.md R5, 42_float.md R130): a quiet NaN whose sign and payload are the free value's. R5 and R130
say a quiet NaN, D15 and I13 (92_eei_decisions.md, 93_implementation_defined.md) any NaN encoding; the model always
sets the quiet bit. DESIGN CHOICE (log 8), unsafe: a claim of quietness is false of a core that follows D15. -/
def nanDraw (n : Nat) : Word := Config.freeNanBits n ||| 0x7FF8000000000000

end Sys2Proof.Machine
end

