-- ==== Sys2Proof/Machine/Flags.lean ====
section
/-! DEFINITION. The core has no flags (10_state.md R27); this file holds the comparisons that the conditional jumps
compute in their place (00_scope.md R11). -/

namespace Sys2Proof.Machine

/-- `a <u b`. -/
def ltU (a b : Word) : Bool := decide (a.toNat < b.toNat)

/-- `a <=u b`. -/
def leU (a b : Word) : Bool := decide (a.toNat ≤ b.toNat)

/-- `a <s b`. -/
def ltS (a b : Word) : Bool := decide (sw a < sw b)

/-- `a <=s b`. -/
def leS (a b : Word) : Bool := decide (sw a ≤ sw b)

/-- `a <f b`. -/
def ltF (a b : Word) : Bool := ltReal (real a) (real b)

/-- `a <=f b`. -/
def leF (a b : Word) : Bool := leReal (real a) (real b)

/-- `a == b`: all bits. -/
def eqW (a b : Word) : Bool := decide (a = b)

end Sys2Proof.Machine
end

