-- ==== Sys2Proof/Machine/Ops.lean ====
section
/-! DEFINITION. The shared operations over registers, memory and status, and the taking of a fault. -/

namespace Sys2Proof.Machine

/-- The code that FAULT_CAUSE reports (60_exceptions.md R300). -/
def FaultCause.code : FaultCause → Nat
  | .none => 0
  | .unknownOpcode _ => 1
  | .unknownSyscall _ => 2
  | .outOfBounds _ => 3
  | .castFailure => 4
  | .imageTooLarge _ => 5
  | .divideByZero => 6
  | .shiftOverflow _ => 7
  | .reservedOpcode _ => 8
  | .invalidCodePoint _ => 9

/-- Taking a fault (60_exceptions.md R305): FAULT_CAUSE is set, RUN_STATE becomes FAULTED, and every register and
memory word stays. Nothing is saved elsewhere and no handler is entered; there is no return from a fault (R312), so no
operation undoes this one. -/
def State.raise (s : State) (c : FaultCause) : State := { s with faultCause := c, runState := .faulted }

/-- The end of an instruction that may fault: the state its pseudocode gives, or the fault taken in the state before
the instruction (60_exceptions.md R305: an instruction that faults writes nothing). -/
def State.settle (s : State) : Except FaultCause State → Out
  | .ok t => .next t
  | .error c => .next (s.raise c)

/-- The default advance `ip <- ip + 1` (10_state.md R33). -/
def State.advance (s : State) : State := { s with ip := s.ip + 1 }

/-- The advance of an immediate load, `ip <- ip + 2` (10_state.md R33). -/
def State.advanceTwo (s : State) : State := { s with ip := s.ip + 2 }

/-- A control transfer: `ip` is set and there is no default advance (10_state.md R33). -/
def State.jumpTo (s : State) (target : Word) : State := { s with ip := target }

/-- `jump_if` (44_jumps.md R170). -/
def State.jumpIf (s : State) (cond : Bool) : State := if cond then s.jumpTo s.dx else s.advance

/-- `MemRead(a, 1)` (00_scope.md R10, 20_memory.md R53). -/
def State.memRead (s : State) (a : Word) : Except FaultCause Word :=
  if a.toNat < s.params.memWords.toNat then .ok (s.mem.read a.toNat) else .error (.outOfBounds a)

/-- `MemWrite(a, 1, v)` (00_scope.md R10, 20_memory.md R53). -/
def State.memWrite (s : State) (a v : Word) : Except FaultCause State :=
  if a.toNat < s.params.memWords.toNat then .ok { s with mem := s.mem.write a.toNat v } else .error (.outOfBounds a)

/-- A push (40_stack.md R100, 45_call_ret.md R200): write at `sp - 1`, then keep the decrement. -/
def State.pushWord (s : State) (v : Word) : Except FaultCause State :=
  match s.memWrite (s.sp - 1) v with
  | .ok t => .ok { t with sp := s.sp - 1 }
  | .error c => .error c

/-- A pop into a register (40_stack.md R101, 45_call_ret.md R201): read at `sp`, then increment. -/
def State.popInto (s : State) (r : Reg) : Except FaultCause State :=
  match s.memRead s.sp with
  | .ok v => .ok { s.set r v with sp := s.sp + 1 }
  | .error c => .error c

/-- `check W = 64 else raise CastFailure()` before a state that needs the Real view (00_scope.md R7, 60_exceptions.md
R302); at the decided width the check passes. -/
def State.castCheck (t : State) : Except FaultCause State :=
  if Config.wordBits = 64 then .ok t else .error .castFailure

/-- `x[AX] <- (f is NaN ? NAN_DRAW : bits(f))` (42_float.md R132 to R135); a NaN result uses up one draw. -/
def State.writeReal (s : State) : Option Word → State
  | some w => { s with ax := w }
  | none => { s with ax := nanDraw s.nanDraws, nanDraws := s.nanDraws + 1 }

/-- A register-to-register move (47_move.md R249). -/
def State.move (s : State) (src dst : Reg) : State := s.set dst (s.get src)

end Sys2Proof.Machine
end

