-- ==== Sys2Proof/Machine/Bitwise.lean ====
section
/-! DEFINITION. Bitwise instructions (43_bitwise.md). -/

namespace Sys2Proof.Machine

/-- AND (43_bitwise.md R150). -/
def execAnd (s : State) : Out := .next (s.set .ax (s.ax &&& s.bx)).advance

/-- OR (43_bitwise.md R151). -/
def execOr (s : State) : Out := .next (s.set .ax (s.ax ||| s.bx)).advance

/-- XOR (43_bitwise.md R152). -/
def execXor (s : State) : Out := .next (s.set .ax (s.ax ^^^ s.bx)).advance

/-- NOT (43_bitwise.md R153). -/
def execNot (s : State) : Out := .next (s.set .ax (~~~ s.ax)).advance

/-- A shift: the whole of `bx` is the amount, and an amount of W or more faults (43_bitwise.md R154, R155). -/
def State.shift (s : State) (result : Word) : Except FaultCause State :=
  if Config.wordBits ≤ s.bx.toNat then .error (.shiftOverflow s.bx) else .ok (s.set .ax result).advance

/-- SHL (43_bitwise.md R154): zeros enter at bit 0. -/
def execShl (s : State) : Out := s.settle (s.shift (s.ax <<< s.bx))

/-- SHR (43_bitwise.md R155): logical, zeros enter at bit 63. -/
def execShr (s : State) : Out := s.settle (s.shift (s.ax >>> s.bx))

end Sys2Proof.Machine
end

