-- ==== Sys2Proof/Machine/Call.lean ====
section
/-! DEFINITION. CALL and RET (45_call_ret.md). -/

namespace Sys2Proof.Machine

/-- CALL (45_call_ret.md R200): push `ip + 1`, jump to `dx`. -/
def execCall (s : State) : Out :=
  s.settle <|
    match s.pushWord (s.ip + 1) with
    | .ok t => .ok (t.jumpTo s.dx)
    | .error c => .error c

/-- RET (45_call_ret.md R201): pop into `dx`, jump there. -/
def execRet (s : State) : Out :=
  s.settle <|
    match s.popInto .dx with
    | .ok t => .ok (t.jumpTo t.dx)
    | .error c => .error c

end Sys2Proof.Machine
end

