-- ==== Sys2Proof/Machine/Convert.lean ====
section
/-! DEFINITION. Numeric conversions (48_convert.md). -/

namespace Sys2Proof.Machine

/-- CWTOR (48_convert.md R270): unsigned Word to Real, to nearest even. -/
def execCwtor (s : State) : Out := s.settle (s.set .ax (ofInteger s.ax.toNat)).advance.castCheck

/-- CSWTOR (48_convert.md R271): SignedWord to Real, to nearest even. -/
def execCswtor (s : State) : Out := s.settle (s.set .ax (ofInteger (sw s.ax))).advance.castCheck

/-- CRTOW (48_convert.md R272): Real to unsigned Word, truncating, saturating; a NaN gives 0. -/
def execCrtow (s : State) : Out :=
  s.settle (s.set .ax (truncW (truncClamp 0 (2 ^ 64 - 1) (real s.ax)))).advance.castCheck

/-- CRTOSW (48_convert.md R273): Real to SignedWord, truncating, saturating; a NaN gives 0. -/
def execCrtosw (s : State) : Out :=
  s.settle (s.set .ax (truncW (truncClamp (-2 ^ 63) (2 ^ 63 - 1) (real s.ax)))).advance.castCheck

end Sys2Proof.Machine
end

