-- ==== Sys2Proof/Machine/FloatArith.lean ====
section
/-! DEFINITION. Float arithmetic (42_float.md). -/

namespace Sys2Proof.Machine

/-- FNEG (42_float.md R131): bit 63 of `ax` is flipped, a NaN's included. -/
def execFneg (s : State) : Out := s.settle (s.set .ax (s.ax ^^^ 0x8000000000000000)).advance.castCheck

/-- FADD (42_float.md R132). -/
def execFadd (s : State) : Out := s.settle (s.writeReal (addReal (real s.ax) (real s.bx))).advance.castCheck

/-- FSUB (42_float.md R133). -/
def execFsub (s : State) : Out := s.settle (s.writeReal (subReal (real s.ax) (real s.bx))).advance.castCheck

/-- FMUL (42_float.md R134). -/
def execFmul (s : State) : Out := s.settle (s.writeReal (mulReal (real s.ax) (real s.bx))).advance.castCheck

/-- FDIV (42_float.md R135): `bx` is unchanged; division by zero does not fault. -/
def execFdiv (s : State) : Out := s.settle (s.writeReal (divReal (real s.ax) (real s.bx))).advance.castCheck

end Sys2Proof.Machine
end

