-- ==== Sys2Proof/Machine/Integer.lean ====
section
/-! DEFINITION. Integer arithmetic (41_integer.md): unsigned Words modulo 2^64, never trapping but for DIV (R117). -/

namespace Sys2Proof.Machine

/-- INC (41_integer.md R110). -/
def execInc (s : State) : Out := .next (s.set .ax (s.ax + 1)).advance

/-- DEC (41_integer.md R111). -/
def execDec (s : State) : Out := .next (s.set .ax (s.ax - 1)).advance

/-- NEG (41_integer.md R112): two's-complement negation. -/
def execNeg (s : State) : Out := .next (s.set .ax (0 - s.ax)).advance

/-- ADD (41_integer.md R113). -/
def execAdd (s : State) : Out := .next (s.set .ax (s.ax + s.bx)).advance

/-- SUB (41_integer.md R114). -/
def execSub (s : State) : Out := .next (s.set .ax (s.ax - s.bx)).advance

/-- MUL (41_integer.md R115): the low 64 bits of the product. -/
def execMul (s : State) : Out := .next (s.set .ax (s.ax * s.bx)).advance

/-- The quotient and remainder DIV writes, by DEFECT_MODE (41_integer.md R116). In LITERAL mode the remainder is
written first and is then the divisor of the quotient, so a zero remainder faults too. -/
def divide (mode : DefectMode) (a d : Word) : Except FaultCause (Word × Word) :=
  if d = 0 then .error .divideByZero
  else
    match mode with
    | .corrected => .ok (a / d, a - a / d * d)
    | .literal => if a % d = 0 then .error .divideByZero else .ok (a / (a % d), a % d)

/-- DIV (41_integer.md R116): quotient to `ax`, remainder to `bx`. -/
def execDiv (s : State) : Out :=
  s.settle <|
    match divide s.params.defectMode s.ax s.bx with
    | .ok (q, r) => .ok ((s.set .bx r).set .ax q).advance
    | .error c => .error c

end Sys2Proof.Machine
end

