-- ==== Sys2Proof/Machine/Jump.lean ====
section
/-! DEFINITION. Jumps (44_jumps.md): the target is `dx`; `State.rhs` is the right operand of the eight jumps that
DEFECT_MODE changes (R170). -/

namespace Sys2Proof.Machine

/-- JMP (44_jumps.md R171). -/
def execJmp (s : State) : Out := .next (s.jumpTo s.dx)

/-- JE (44_jumps.md R172): taken if `ax` equals `bx`. -/
def execJe (s : State) : Out := .next (s.jumpIf (eqW s.ax s.bx))

/-- JNE (44_jumps.md R173): taken if `ax` differs from `bx`. -/
def execJne (s : State) : Out := .next (s.jumpIf (!eqW s.ax s.bx))

/-- JG (44_jumps.md R174): taken if `ax >s rhs`. -/
def execJg (s : State) : Out := .next (s.jumpIf (ltS s.rhs s.ax))

/-- JGE (44_jumps.md R175): taken if `ax >=s rhs`. -/
def execJge (s : State) : Out := .next (s.jumpIf (leS s.rhs s.ax))

/-- JL (44_jumps.md R176): taken if `ax <s rhs`. -/
def execJl (s : State) : Out := .next (s.jumpIf (ltS s.ax s.rhs))

/-- JLE (44_jumps.md R177): taken if `ax <=s rhs`. -/
def execJle (s : State) : Out := .next (s.jumpIf (leS s.ax s.rhs))

/-- JA (44_jumps.md R178): taken if `ax >u bx`. -/
def execJa (s : State) : Out := .next (s.jumpIf (ltU s.bx s.ax))

/-- JAE (44_jumps.md R179): taken if `ax >=u bx`. -/
def execJae (s : State) : Out := .next (s.jumpIf (leU s.bx s.ax))

/-- JB (44_jumps.md R180): taken if `ax <u bx`. -/
def execJb (s : State) : Out := .next (s.jumpIf (ltU s.ax s.bx))

/-- JBE (44_jumps.md R181): taken if `ax <=u bx`. -/
def execJbe (s : State) : Out := .next (s.jumpIf (leU s.ax s.bx))

/-- FJG (44_jumps.md R182): taken if `ax >f rhs`. -/
def execFjg (s : State) : Out := s.settle (s.jumpIf (ltF s.rhs s.ax)).castCheck

/-- FJGE (44_jumps.md R183): taken if `ax >=f rhs`. -/
def execFjge (s : State) : Out := s.settle (s.jumpIf (leF s.rhs s.ax)).castCheck

/-- FJL (44_jumps.md R184): taken if `ax <f rhs`. -/
def execFjl (s : State) : Out := s.settle (s.jumpIf (ltF s.ax s.rhs)).castCheck

/-- FJLE (44_jumps.md R185): taken if `ax <=f rhs`. -/
def execFjle (s : State) : Out := s.settle (s.jumpIf (leF s.ax s.rhs)).castCheck

end Sys2Proof.Machine
end

