-- ==== Sys2Proof/Machine/Move.lean ====
section
/-! DEFINITION. Moves (47_move.md). The immediate of an F2 instruction was fetched with it (Machine/Fetch.lean), which
raised OUT_OF_BOUNDS where there is no Word at `ip + 1`. -/

namespace Sys2Proof.Machine

/-- MOVE_OP_TO_AX (47_move.md R240): the immediate Word, whole, into `ax`. -/
def execMoveOpToAx (imm : Word) (s : State) : Out := .next (s.set .ax imm).advanceTwo

/-- MOVE_OP_TO_BX (47_move.md R241): the immediate Word, whole, into `bx`. -/
def execMoveOpToBx (imm : Word) (s : State) : Out := .next (s.set .bx imm).advanceTwo

/-- MOVE_OP_TO_CX (47_move.md R242): the immediate Word, whole, into `cx`. -/
def execMoveOpToCx (imm : Word) (s : State) : Out := .next (s.set .cx imm).advanceTwo

/-- MOVE_OP_TO_DX (47_move.md R243): the immediate Word, whole, into `dx`. -/
def execMoveOpToDx (imm : Word) (s : State) : Out := .next (s.set .dx imm).advanceTwo

/-- MOVE_AX_TO_BX (47_move.md R250). -/
def execMoveAxToBx (s : State) : Out := .next (s.move .ax .bx).advance

/-- MOVE_AX_TO_CX (47_move.md R251). -/
def execMoveAxToCx (s : State) : Out := .next (s.move .ax .cx).advance

/-- MOVE_AX_TO_DX (47_move.md R252). -/
def execMoveAxToDx (s : State) : Out := .next (s.move .ax .dx).advance

/-- MOVE_BX_TO_AX (47_move.md R253). -/
def execMoveBxToAx (s : State) : Out := .next (s.move .bx .ax).advance

/-- MOVE_BX_TO_CX (47_move.md R254). -/
def execMoveBxToCx (s : State) : Out := .next (s.move .bx .cx).advance

/-- MOVE_BX_TO_DX (47_move.md R255). -/
def execMoveBxToDx (s : State) : Out := .next (s.move .bx .dx).advance

/-- MOVE_CX_TO_AX (47_move.md R256). -/
def execMoveCxToAx (s : State) : Out := .next (s.move .cx .ax).advance

/-- MOVE_CX_TO_BX (47_move.md R257). -/
def execMoveCxToBx (s : State) : Out := .next (s.move .cx .bx).advance

/-- MOVE_CX_TO_DX (47_move.md R258). -/
def execMoveCxToDx (s : State) : Out := .next (s.move .cx .dx).advance

/-- MOVE_DX_TO_AX (47_move.md R259). -/
def execMoveDxToAx (s : State) : Out := .next (s.move .dx .ax).advance

/-- MOVE_DX_TO_BX (47_move.md R260). -/
def execMoveDxToBx (s : State) : Out := .next (s.move .dx .bx).advance

/-- MOVE_DX_TO_CX (47_move.md R261). -/
def execMoveDxToCx (s : State) : Out := .next (s.move .dx .cx).advance

end Sys2Proof.Machine
end

