-- ==== Sys2Proof/Machine/Reserved.lean ====
section
/-! DEFINITION. DEREF (49_reserved.md). -/

namespace Sys2Proof.Machine

/-- DEREF (49_reserved.md R280, 60_exceptions.md R308): the fault RESERVED_OPCODE, which records the opcode Word. -/
def execDeref (s : State) : Out := s.settle (.error (.reservedOpcode (opcodeWord s.params.opcodeMap .deref)))

end Sys2Proof.Machine
end

