-- ==== Sys2Proof/Machine/Stack.lean ====
section
/-! DEFINITION. PUSH and POP (40_stack.md). -/

namespace Sys2Proof.Machine

/-- PUSH (40_stack.md R100): push `cx`. -/
def execPush (s : State) : Out :=
  s.settle <|
    match s.pushWord s.cx with
    | .ok t => .ok t.advance
    | .error c => .error c

/-- POP (40_stack.md R101): pop into `cx`. -/
def execPop (s : State) : Out :=
  s.settle <|
    match s.popInto .cx with
    | .ok t => .ok t.advance
    | .error c => .error c

end Sys2Proof.Machine
end

