-- ==== Sys2Proof/Machine/Syscall.lean ====
section
/-! DEFINITION. SYSCALL and the dispatch gate (46_syscall.md). Syscalls 0 and 1 end in a blocked state; the two
`complete` operations are the steps that follow once the host has answered (R216, 70_reset_and_hazards.md R345). -/

namespace Sys2Proof.Machine

/-- The character loop of syscall 0 (46_syscall.md R212) over `n` Words from address `a`: what is appended to the
output history, and the fault that ends it early. For each character the bounds check comes before the code-point
check (60_exceptions.md R311), and `a` never wraps. -/
def writeChars (limit : Nat) (m : Memory) : (n a : Nat) → List OutEvent × Option FaultCause
  | 0, _ => ([], none)
  | n + 1, a =>
    if limit ≤ a then ([], some (.outOfBounds (BitVec.ofNat 64 a)))
    else if isScalarValue (m.read a) then
      let later := writeChars limit m n (a + 1)
      (.char (m.read a) :: later.1, later.2)
    else ([], some (.invalidCodePoint (m.read a)))

/-- Syscall 0, write (46_syscall.md R212): the characters, `dx` past them, `cx` 0, then the flush, which blocks. A fault
keeps the characters already appended (60_exceptions.md R305). -/
def sysWrite (s : State) : State :=
  match writeChars s.params.memWords.toNat s.mem s.cx.toNat s.dx.toNat with
  | (chars, none) =>
    { s with dx := s.dx + s.cx, cx := 0, output := s.output ++ chars ++ [.flush], runState := .blockedOut }
  | (chars, some c) => { s with output := s.output ++ chars }.raise c

/-- Syscall 1, read line (46_syscall.md R213): the core blocks until a line comes. -/
def sysReadLine (s : State) : State := { s with runState := .blockedIn }

/-- Syscall 2, terminate (46_syscall.md R214): no default advance. -/
def sysTerminate (s : State) : State := (s.set .ax s.dx).jumpTo s.params.memWords

/-- SYSCALL (46_syscall.md R210, R211, R215): the whole of `ax` is the selector. -/
def execSyscall (s : State) : Out :=
  if s.ax = 0 then .next (sysWrite s)
  else if s.ax = 1 then .next (sysReadLine s)
  else if s.ax = 2 then .next (sysTerminate s)
  else .next (s.raise (.unknownSyscall s.ax))

/-- BLOCKED_OUT (46_syscall.md R216): the core waits until the host signals `out_ack`; then the syscall completes. -/
def State.completeWrite (s : State) : State :=
  match s.acks with
  | 0 => s
  | n + 1 => { s with acks := n, runState := .running }.advance

/-- BLOCKED_IN (46_syscall.md R213, R216): the core waits until the host delivers a line, which is used up; a line that
does not fit below MEM_WORDS faults and nothing is stored, any other is stored from `dx` up. -/
def State.completeReadLine (s : State) : State :=
  match s.lines with
  | [] => s
  | line :: later =>
    let t := { s with lines := later, runState := .running }
    if 0 < line.length ∧ s.params.memWords.toNat ≤ s.dx.toNat + line.length - 1 then
      t.raise (.outOfBounds (BitVec.ofNat 64 (max s.dx.toNat s.params.memWords.toNat)))
    else { t with mem := s.mem.writeList s.dx.toNat line }.advance

end Sys2Proof.Machine
end

