-- ==== Sys2Proof/Machine/Dispatch.lean ====
section
/-! DEFINITION. One arm for each instruction, each one direct call of its meaning. -/

namespace Sys2Proof.Machine

def exec (i : Instr) (s : State) : Host.Outcome State Fault Refusal :=
  match i with
  | .push => Sys2Proof.Machine.execPush s
  | .pop => Sys2Proof.Machine.execPop s
  | .inc => Sys2Proof.Machine.execInc s
  | .dec => Sys2Proof.Machine.execDec s
  | .neg => Sys2Proof.Machine.execNeg s
  | .add => Sys2Proof.Machine.execAdd s
  | .sub => Sys2Proof.Machine.execSub s
  | .mul => Sys2Proof.Machine.execMul s
  | .div => Sys2Proof.Machine.execDiv s
  | .fneg => Sys2Proof.Machine.execFneg s
  | .fadd => Sys2Proof.Machine.execFadd s
  | .fsub => Sys2Proof.Machine.execFsub s
  | .fmul => Sys2Proof.Machine.execFmul s
  | .fdiv => Sys2Proof.Machine.execFdiv s
  | .and => Sys2Proof.Machine.execAnd s
  | .or => Sys2Proof.Machine.execOr s
  | .xor => Sys2Proof.Machine.execXor s
  | .not => Sys2Proof.Machine.execNot s
  | .shl => Sys2Proof.Machine.execShl s
  | .shr => Sys2Proof.Machine.execShr s
  | .jmp => Sys2Proof.Machine.execJmp s
  | .je => Sys2Proof.Machine.execJe s
  | .jne => Sys2Proof.Machine.execJne s
  | .jg => Sys2Proof.Machine.execJg s
  | .jge => Sys2Proof.Machine.execJge s
  | .jl => Sys2Proof.Machine.execJl s
  | .jle => Sys2Proof.Machine.execJle s
  | .ja => Sys2Proof.Machine.execJa s
  | .jae => Sys2Proof.Machine.execJae s
  | .jb => Sys2Proof.Machine.execJb s
  | .jbe => Sys2Proof.Machine.execJbe s
  | .fjg => Sys2Proof.Machine.execFjg s
  | .fjge => Sys2Proof.Machine.execFjge s
  | .fjl => Sys2Proof.Machine.execFjl s
  | .fjle => Sys2Proof.Machine.execFjle s
  | .call => Sys2Proof.Machine.execCall s
  | .ret => Sys2Proof.Machine.execRet s
  | .syscall => Sys2Proof.Machine.execSyscall s
  | .moveOpToAx imm => Sys2Proof.Machine.execMoveOpToAx imm s
  | .moveOpToBx imm => Sys2Proof.Machine.execMoveOpToBx imm s
  | .moveOpToCx imm => Sys2Proof.Machine.execMoveOpToCx imm s
  | .moveOpToDx imm => Sys2Proof.Machine.execMoveOpToDx imm s
  | .moveAxToBx => Sys2Proof.Machine.execMoveAxToBx s
  | .moveAxToCx => Sys2Proof.Machine.execMoveAxToCx s
  | .moveAxToDx => Sys2Proof.Machine.execMoveAxToDx s
  | .moveBxToAx => Sys2Proof.Machine.execMoveBxToAx s
  | .moveBxToCx => Sys2Proof.Machine.execMoveBxToCx s
  | .moveBxToDx => Sys2Proof.Machine.execMoveBxToDx s
  | .moveCxToAx => Sys2Proof.Machine.execMoveCxToAx s
  | .moveCxToBx => Sys2Proof.Machine.execMoveCxToBx s
  | .moveCxToDx => Sys2Proof.Machine.execMoveCxToDx s
  | .moveDxToAx => Sys2Proof.Machine.execMoveDxToAx s
  | .moveDxToBx => Sys2Proof.Machine.execMoveDxToBx s
  | .moveDxToCx => Sys2Proof.Machine.execMoveDxToCx s
  | .cwtor => Sys2Proof.Machine.execCwtor s
  | .cswtor => Sys2Proof.Machine.execCswtor s
  | .crtow => Sys2Proof.Machine.execCrtow s
  | .crtosw => Sys2Proof.Machine.execCrtosw s
  | .deref => Sys2Proof.Machine.execDeref s

end Sys2Proof.Machine
end

