-- ==== Sys2Proof/Machine/Fetch.lean ====
section
/-! DEFINITION. Fetching an instruction (10_state.md R32, 30_encoding.md R72). -/

namespace Sys2Proof.Machine

/-- The Words a fetch can read: the one at `ip` and, where it exists, the one at `ip + 1` (20_memory.md R52). -/
def State.fetchWords (s : State) : List Word :=
  if s.ip.toNat + 1 < s.params.memWords.toNat then [s.mem.read s.ip.toNat, s.mem.read (s.ip.toNat + 1)]
  else [s.mem.read s.ip.toNat]

/-- The instruction at `ip`, or the fault its fetch raises: UNKNOWN_OPCODE for a Word not in the opcode map
(30_encoding.md R78), OUT_OF_BOUNDS for an immediate that would lie at MEM_WORDS (47_move.md R240 to R243). Called where
`ip` is below MEM_WORDS. -/
def State.fetch (s : State) : Except FaultCause Instr :=
  match decode s.params.opcodeMap s.fetchWords with
  | .ok (i, _) => .ok i
  | .error .missingImmediate => .error (.outOfBounds (s.ip + 1))
  | .error (.unknownOpcode op) => .error (.unknownOpcode op)
  | .error .noWord => .error (.outOfBounds s.ip)

/-- Place an instruction, given by a table row's bits, where the next step fetches. The core is set RUNNING, as `load`
and `start` leave it; `ip` stays, unless fewer than two Words of memory stand from it up, where it becomes 0. -/
def State.placeAtFetch (s : State) (nbits w : Nat) : State :=
  let a := if s.ip.toNat + 1 < s.params.memWords.toNat then s.ip else 0
  { s with
    runState := .running
    ip := a
    mem := s.mem.writeList a.toNat ((tableWords nbits w).take (s.params.memWords.toNat - a.toNat)) }

end Sys2Proof.Machine
end

