-- ==== Sys2Proof/Machine/Transactions.lean ====
section
/-! DEFINITION. The host's transactions `load` and `start`, the terminal check, and the `status` interface
(00_scope.md R12, 10_state.md R28, R32, 70_reset_and_hazards.md R330, R331). -/

namespace Sys2Proof.Machine

/-- `load(words, entry)` (70_reset_and_hazards.md R330): accepted in RESET only, ignored elsewhere; an image larger than
the memory faults and nothing is written (60_exceptions.md R310). -/
def State.load (s : State) (words : List Word) (entry : Word) : State :=
  if s.runState ≠ .reset then s
  else if s.params.memWords.toNat < words.length then s.raise (.imageTooLarge words.length)
  else { s with mem := s.mem.writeList 0 words, ip := entry, runState := .loaded }

/-- `start` (70_reset_and_hazards.md R331): accepted in LOADED only, ignored elsewhere. -/
def State.start (s : State) : State :=
  if s.runState ≠ .loaded then s
  else
    { s with
      sp := s.params.memWords
      fp := s.params.memWords
      lp := s.params.memWords - 1
      runState := .running }

/-- One transaction of the host. -/
def State.command (s : State) : Command → State
  | .load words entry => s.load words entry
  | .start => s.start

/-- RESET and LOADED: the core waits for the host's next transaction and takes it (log 9, 19). -/
def State.takeCommand (s : State) : State :=
  match s.commands with
  | [] => s
  | c :: later => { s with commands := later }.command c

/-- The terminal state (10_state.md R32): RUN_STATE HALTED, EXIT_VALUE from `ax`. -/
def State.halt (s : State) : State := { s with runState := .halted, exitValue := s.ax }

/-- What the `status` interface shows (00_scope.md R12, 10_state.md R28): run state, fault code, exit value. -/
def State.status (s : State) : RunState × Nat × Word := (s.runState, s.faultCause.code, s.exitValue)

end Sys2Proof.Machine
end

