-- ==== Sys2Proof/Machine/Cycle.lean ====
section
/-! DEFINITION. The instruction cycle (10_state.md R32). -/

namespace Sys2Proof.Machine

/-- One step in RUN_STATE RUNNING (10_state.md R32): the terminal check, then fetch, decode and execute. -/
def cycle (s : State) : Out :=
  if s.params.memWords.toNat ≤ s.ip.toNat then .next s.halt
  else
    match s.fetch with
    | .ok i => exec i s
    | .error c => .next (s.raise c)

end Sys2Proof.Machine
end

