-- ==== Sys2Proof/Machine/Step.lean ====
section
/-! DEFINITION. One step of the core, by RUN_STATE (10_state.md R28, R32; 70_reset_and_hazards.md R345). -/

namespace Sys2Proof.Machine

/-- One step. HALTED and FAULTED are final and no step leaves them (10_state.md R28; log 11); a core that waits for a
host with nothing to say stays as it is (46_syscall.md R216; log 12). -/
def step (s : State) : Host.Outcome State Fault Refusal :=
  match s.runState with
  | .reset => .next s.takeCommand
  | .loaded => .next s.takeCommand
  | .running => cycle s
  | .blockedOut => .next s.completeWrite
  | .blockedIn => .next s.completeReadLine
  | .halted => .next s
  | .faulted => .next s

/-- The state with an instruction, given by a table row's bits, stored where `step` fetches next. -/
def State.withFetchWord (s : State) (nbits w : Nat) : State := s.placeAtFetch nbits w

end Sys2Proof.Machine
end

