-- ==== Sys2Proof/Machine/ImageFile.lean ====
section
/-! DEFINITION. The layout of a persisted image (70_reset_and_hazards.md R334), recorded for a host that loads from a
file. It is host software (00_scope.md R4): outside State, used by no step. -/

namespace Sys2Proof.Machine

/-- The bytes of a file Word, little-endian: byte j is bits 8j+7 to 8j (70_reset_and_hazards.md R334). -/
def wordBytes (w : Word) : List (BitVec 8) :=
  [w.extractLsb' 0 8, w.extractLsb' 8 8, w.extractLsb' 16 8, w.extractLsb' 24 8,
   w.extractLsb' 32 8, w.extractLsb' 40 8, w.extractLsb' 48 8, w.extractLsb' 56 8]

/-- The file of an image: the entry point, then the program Words. -/
def imageBytes (entry : Word) (words : List Word) : List (BitVec 8) := (entry :: words).flatMap wordBytes

/-- The Words of a file; none if the byte count is not a multiple of 8. -/
def fileWords : List (BitVec 8) → Option (List Word)
  | [] => some []
  | b0 :: b1 :: b2 :: b3 :: b4 :: b5 :: b6 :: b7 :: rest =>
    (fileWords rest).map ((b7 ++ b6 ++ b5 ++ b4 ++ b3 ++ b2 ++ b1 ++ b0) :: ·)
  | _ => none

/-- Reading an image file: the first Word is the entry point and the rest the program, with no check of the one against
the other; a file of no Words is malformed (70_reset_and_hazards.md R334). -/
def readImage (bytes : List (BitVec 8)) : Option (Word × List Word) :=
  match fileWords bytes with
  | some (entry :: words) => some (entry, words)
  | some [] => none
  | none => none

end Sys2Proof.Machine
end

