-- ==== Sys2Proof/Safety.lean ====
section
/-! DEFINITION. What claims call a good state and a good outcome. -/

namespace Sys2Proof.Machine

/-- FAULT_CAUSE is set exactly in FAULTED (10_state.md R28, 60_exceptions.md R305). -/
def State.statusOk (s : State) : Prop := s.faultCause = .none ↔ s.runState ≠ .faulted

/-- The Word at `ip` is in memory and is the opcode of SYSCALL. -/
def State.atSyscall (s : State) : Prop :=
  s.ip.toNat < s.params.memWords.toNat ∧ s.mem.read s.ip.toNat = opcodeWord s.params.opcodeMap .syscall

/-- A core that halted or waits inside a syscall stands where it may (10_state.md R32, 46_syscall.md R212, R213): a
halted core has `ip` at or above MEM_WORDS and its exit value in `ax`; a blocked one stands at a SYSCALL whose selector
is still in `ax`, and one that waits for its flush has `cx = 0`. -/
def State.phaseOk (s : State) : Prop :=
  (s.runState = .halted → s.params.memWords.toNat ≤ s.ip.toNat ∧ s.exitValue = s.ax) ∧
  (s.runState = .blockedOut → s.atSyscall ∧ s.ax = 0 ∧ s.cx = 0) ∧
  (s.runState = .blockedIn → s.atSyscall ∧ s.ax = 1)

/-- Every character of the output history is a Unicode scalar value (46_syscall.md R212). -/
def OutEvent.ok : OutEvent → Bool
  | .char c => isScalarValue c
  | .flush => true

/-- The invariant of the core: the parameters meet 00_scope.md R5; memory is in the model's canonical form (log 1, 2)
and lists no address outside it (20_memory.md R50); `sp <= MEM_WORDS` (40_stack.md R102); the status fields agree (10_state.md R28); a
final or waiting core stands where it may; only characters were output. -/
structure State.Inv (s : State) : Prop where
  params : s.params.ok = true
  memWf : Memory.wf s.mem = true
  memBelow : Memory.below s.params.memWords.toNat s.mem = true
  spRange : s.sp.toNat ≤ s.params.memWords.toNat
  status : s.statusOk
  phase : s.phaseOk
  output : s.output.all OutEvent.ok = true

/-- A state no step leaves (10_state.md R28). -/
def State.final (s : State) : Prop := s.runState = .halted ∨ s.runState = .faulted

/-- The only successful end of a run: HALTED (10_state.md R35). -/
def State.succeeded (s : State) (exit : Word) : Prop := s.runState = .halted ∧ s.exitValue = exit

end Sys2Proof.Machine
end

