-- ==== Sys2Proof/Certificates/Slice0/Obligations.lean ====
section
/-! DEFINITION. The statements for the provers. -/

open Sys2Proof Sys2Proof.Machine

namespace Sys2Proof.Claims

/-- The step from `s` is the same whatever transactions the host has yet to make, and leaves them as they are. -/
def ignoresCommands (s : State) : Prop :=
  ∀ (t : State) (cs : List Command), step s = .next t → step { s with commands := cs } = .next { t with commands := cs }

/-- A state in which a fault was taken and nothing else changed (60_exceptions.md R305). -/
def faulted (s : State) (c : FaultCause) : State := { s with runState := .faulted, faultCause := c }

/-- The instruction answers a next state that differs from `s` in `ax`, of which `result` holds, and in `ip`, advanced
by one. -/
def writesAx (i : Instr) (s : State) (result : Word → Prop) : Prop :=
  ∃ t, exec i s = .next t ∧ result t.ax ∧ t = { s with ax := t.ax, ip := s.ip + 1 }

/-- The remainder of `v` modulo 2^64, as a signed number. -/
def wrapSigned (v : Int) : Int := (v + 2 ^ 63) % 2 ^ 64 - 2 ^ 63

/-- The least magnitude, in units of 2^-1074, that rounds to infinity: the largest finite datum and half its spacing. -/
def overflowUnits : Nat := (2 ^ 54 - 1) * 2 ^ 2044

/-- How far `m` units are from `num / den` units, times `den`. -/
def distance (num den m : Nat) : Nat := ((num : Int) - den * m).natAbs

/-- `w` is `num / den` units of 2^-1074 with sign `neg`, rounded to nearest, ties to even: infinity at or past the
overflow threshold, else the nearest finite datum, which is even if another is as near. -/
def nearestEven (neg : Bool) (num den : Nat) (w : Word) : Prop :=
  (overflowUnits * den ≤ num ∧ real w = .inf neg) ∨
  (num < overflowUnits * den ∧ ∃ m, real w = .finite neg m ∧
    ∀ v k, real v = .finite neg k →
      distance num den m ≤ distance num den k ∧
      (k ≠ m → distance num den m = distance num den k → w.getLsbD 0 = false))

/-- `x < y` of two data; a NaN is below nothing and above nothing. -/
def below : Real64 → Real64 → Prop
  | .finite a m, .finite b n => signedMag a m < signedMag b n
  | .inf a, .finite _ _ => a = true
  | .finite _ _, .inf b => b = false
  | .inf a, .inf b => a = true ∧ b = false
  | .nan _ _, _ | .finite _ _, .nan _ _ | .inf _, .nan _ _ => False

/-- `x` and `y` are the same number; the two zeros are, a NaN is no number. -/
def sameValue : Real64 → Real64 → Prop
  | .finite a m, .finite b n => signedMag a m = signedMag b n
  | .inf a, .inf b => a = b
  | .inf _, .finite _ _ | .finite _ _, .inf _ => False
  | .nan _ _, _ | .finite _ _, .nan _ _ | .inf _, .nan _ _ => False

/-- The instructions of jumps, in catalog order (44_jumps.md). -/
def jumps : List Instr :=
  [.jmp, .je, .jne, .jg, .jge, .jl, .jle, .ja, .jae, .jb, .jbe, .fjg, .fjge, .fjl, .fjle]

end Sys2Proof.Claims

open Sys2Proof.Claims

/-! ## Encoding -/

/-- 30_encoding.md R71, R72, R73, R76: under every complete and injective opcode map, decoding the Words of an
instruction gives it back, with the Words after it untouched, whatever its immediate. -/
def Obligations.DecodeInvertsEncode : Prop :=
  ∀ map, OpcodeMap.ok map = true → ∀ (i : Instr) (rest : List Word), decode map (encode map i ++ rest) = .ok (i, rest)

/-- 30_encoding.md R70, R72, R76: whatever decodes to an instruction begins with exactly that instruction's Words. -/
def Obligations.DecodedWordsAreTheEncoding : Prop :=
  ∀ map, OpcodeMap.ok map = true → ∀ (ws : List Word) (i : Instr) (rest : List Word),
    decode map ws = .ok (i, rest) → ws = encode map i ++ rest

/-- 30_encoding.md R70, R78: an opcode Word is unknown to the decoder exactly when none of the 59 values of the map
equals it. -/
def Obligations.UnknownOpcodeIffNotInMap : Prop :=
  ∀ map, OpcodeMap.complete map = true → ∀ (op : Word) (rest : List Word),
    decode map (op :: rest) = .error (.unknownOpcode op) ↔ op ∉ map

/-- 30_encoding.md R76, R73, R78: sample words of each family, written from the table. -/
def Obligations.SampleWordsDecode : Prop :=
  decodeTableWord 64 0x00 = some .push ∧ decodeTableWord 64 0x08 = some .div ∧ decodeTableWord 64 0x0B = some .fsub ∧
  decodeTableWord 64 0x13 = some .shr ∧ decodeTableWord 64 0x1B = some .ja ∧ decodeTableWord 64 0x22 = some .fjle ∧
  decodeTableWord 64 0x24 = some .ret ∧ decodeTableWord 64 0x25 = some .syscall ∧
  decodeTableWord 128 0xFFFFFFFFFFFFFFFF0000000000000029 = some (.moveOpToDx 0xFFFFFFFFFFFFFFFF) ∧
  decodeTableWord 64 0x2D = some .moveBxToAx ∧ decodeTableWord 64 0x39 = some .crtosw ∧
  decodeTableWord 64 0x3A = some .deref ∧ decodeTableWord 64 0x3B = none ∧
  decodeTableWord 64 0x8000000000000000 = none

/-! ## The instruction cycle -/

/-- 10_state.md R32, R72 of 30_encoding.md: in RUNNING, with `ip` in memory, when the Words at `ip` and `ip + 1` (the
second only where it exists) decode to `i`, the step is `exec i` and nothing more. -/
def Obligations.StepRunsDecodedInstruction : Prop :=
  ∀ (s : State) (i : Instr) (rest : List Word), s.runState = .running → s.ip.toNat < s.params.memWords.toNat →
    decode s.params.opcodeMap
      (s.mem.read s.ip.toNat ::
        if s.ip.toNat + 1 < s.params.memWords.toNat then [s.mem.read (s.ip.toNat + 1)] else []) = .ok (i, rest) →
    step s = exec i s

/-- The Words of an instruction standing in memory from `ip` up make the step run it (10_state.md R32, 30_encoding.md
R71, 20_memory.md R63). -/
def Obligations.StoredInstructionRuns : Prop :=
  ∀ (s : State) (i : Instr), s.runState = .running → OpcodeMap.ok s.params.opcodeMap = true →
    (∀ k w, (encode s.params.opcodeMap i)[k]? = some w →
      s.ip.toNat + k < s.params.memWords.toNat ∧ s.mem.read (s.ip.toNat + k) = w) →
    step s = exec i s

/-- 10_state.md R32, the cycle: the terminal check; then UNKNOWN_OPCODE, RESERVED_OPCODE or the instruction, an F2
instruction with the Word at `ip + 1` or, where there is none, OUT_OF_BOUNDS. -/
def Obligations.RunningCycle : Prop :=
  ∀ s : State, s.runState = .running → OpcodeMap.ok s.params.opcodeMap = true →
    (s.params.memWords.toNat ≤ s.ip.toNat → step s = .next { s with runState := .halted, exitValue := s.ax }) ∧
    (s.ip.toNat < s.params.memWords.toNat →
      (s.mem.read s.ip.toNat ∉ s.params.opcodeMap →
        step s = .next (faulted s (.unknownOpcode (s.mem.read s.ip.toNat)))) ∧
      (s.mem.read s.ip.toNat = opcodeWord s.params.opcodeMap .deref →
        step s = .next (faulted s (.reservedOpcode (s.mem.read s.ip.toNat)))) ∧
      (∀ i : Instr, i.operandWords = [] → s.mem.read s.ip.toNat = opcodeWord s.params.opcodeMap i →
        step s = exec i s) ∧
      (∀ build ∈ [Instr.moveOpToAx, Instr.moveOpToBx, Instr.moveOpToCx, Instr.moveOpToDx],
        s.mem.read s.ip.toNat = opcodeWord s.params.opcodeMap (build 0) →
        if s.ip.toNat + 1 < s.params.memWords.toNat then step s = exec (build (s.mem.read (s.ip.toNat + 1))) s
        else step s = .next (faulted s (.outOfBounds (s.ip + 1)))))

/-- 60_exceptions.md R303: a Word outside the opcode map faults at its fetch and records itself; with 30_encoding.md
R78, under the default map this is every Word from 59 up. -/
def Obligations.UnknownOpcodeFaultsAtFetch : Prop :=
  ∀ s : State, s.runState = .running → s.ip.toNat < s.params.memWords.toNat →
    (s.mem.read s.ip.toNat ∉ s.params.opcodeMap →
      step s = .next (faulted s (.unknownOpcode (s.mem.read s.ip.toNat)))) ∧
    (s.params.opcodeMap = defaultOpcodeMap → 59 ≤ (s.mem.read s.ip.toNat).toNat →
      step s = .next (faulted s (.unknownOpcode (s.mem.read s.ip.toNat))))

/-- HALTED and FAULTED are final: no step leaves them (10_state.md R28, 60_exceptions.md R312). That the step answers the same
state is the model's form of it (log 11). -/
def Obligations.FinalStatesStay : Prop :=
  ∀ s : State, s.runState = .halted ∨ s.runState = .faulted → step s = .next s

/-- 20_memory.md R63, 70_reset_and_hazards.md R341: a PUSH onto the Word after itself changes the instruction that
the next step runs, with nothing between. -/
def Obligations.PushedWordIsFetchedNext : Prop :=
  ∀ (s : State) (i : Instr), s.runState = .running → OpcodeMap.ok s.params.opcodeMap = true →
    s.ip.toNat + 1 < s.params.memWords.toNat → s.sp - 1 = s.ip + 1 →
    s.mem.read s.ip.toNat = opcodeWord s.params.opcodeMap .push → i.operandWords = [] →
    s.cx = opcodeWord s.params.opcodeMap i →
    ∃ t, step s = .next t ∧ t.ip = s.ip + 1 ∧ step t = exec i t

/-! ## Stack, call and return -/

/-- 40_stack.md R100. -/
def Obligations.PushStoresBelowSp : Prop :=
  opcodeWord defaultOpcodeMap .push = 0x00 ∧ ∀ s : State,
    if (s.sp - 1).toNat < s.params.memWords.toNat then
      ∃ t, exec .push s = .next t ∧ t = { s with mem := t.mem, sp := s.sp - 1, ip := s.ip + 1 } ∧
        ∀ a, t.mem.read a = if a = (s.sp - 1).toNat then s.cx else s.mem.read a
    else exec .push s = .next (faulted s (.outOfBounds (s.sp - 1)))

/-- 40_stack.md R101. -/
def Obligations.PopLoadsFromSp : Prop :=
  opcodeWord defaultOpcodeMap .pop = 0x01 ∧ ∀ s : State,
    if s.sp.toNat < s.params.memWords.toNat then
      exec .pop s = .next { s with cx := s.mem.read s.sp.toNat, sp := s.sp + 1, ip := s.ip + 1 }
    else exec .pop s = .next (faulted s (.outOfBounds s.sp))

/-- 45_call_ret.md R200. -/
def Obligations.CallPushesReturnAddress : Prop :=
  opcodeWord defaultOpcodeMap .call = 0x23 ∧ ∀ s : State,
    if (s.sp - 1).toNat < s.params.memWords.toNat then
      ∃ t, exec .call s = .next t ∧ t = { s with mem := t.mem, sp := s.sp - 1, ip := s.dx } ∧
        ∀ a, t.mem.read a = if a = (s.sp - 1).toNat then s.ip + 1 else s.mem.read a
    else exec .call s = .next (faulted s (.outOfBounds (s.sp - 1)))

/-- 45_call_ret.md R201. -/
def Obligations.RetPopsIntoDx : Prop :=
  opcodeWord defaultOpcodeMap .ret = 0x24 ∧ ∀ s : State,
    if s.sp.toNat < s.params.memWords.toNat then
      exec .ret s = .next { s with
        dx := s.mem.read s.sp.toNat, sp := s.sp + 1, ip := s.mem.read s.sp.toNat }
    else exec .ret s = .next (faulted s (.outOfBounds s.sp))

/-- A POP right after a PUSH gives back `cx` and `sp`, and a RET right after a CALL comes back to the instruction after
the CALL with `sp` as it was, whatever the popped register held between (40_stack.md R100, R101; 45_call_ret.md R200,
R201; 70_reset_and_hazards.md R340). -/
def Obligations.PopUndoesPushAndRetUndoesCall : Prop :=
  ∀ s : State, (s.sp - 1).toNat < s.params.memWords.toNat → ∀ junk : Word,
    (∃ t, exec .push s = .next t ∧ exec .pop { t with cx := junk } = .next { s with mem := t.mem, ip := s.ip + 2 }) ∧
    (∃ t, exec .call s = .next t ∧ t.ip = s.dx ∧
      exec .ret { t with dx := junk } = .next { s with mem := t.mem, dx := s.ip + 1, ip := s.ip + 1 })

/-- `0 <= sp <= MEM_WORDS` between instructions (40_stack.md R102): `start`, taken from the model's list of transactions
(log 9), establishes it and every step keeps it. -/
def Obligations.StackPointerStaysInRange : Prop :=
  (∀ s t : State, s.runState = .loaded → s.commands.head? = some .start → step s = .next t → t.sp = s.params.memWords) ∧
  ∀ s t : State, s.sp.toNat ≤ s.params.memWords.toNat → step s = .next t → t.sp.toNat ≤ t.params.memWords.toNat

/-! ## Integer arithmetic -/

/-- 41_integer.md R110, R111, R112, on exact integers reduced by `trunc_W`. -/
def Obligations.IntegerUnaryResults : Prop :=
  (opcodeWord defaultOpcodeMap .inc = 0x02 ∧ ∀ s, writesAx .inc s fun r => (r.toNat : Int) = ((s.ax.toNat : Int) + 1) % 2 ^ 64) ∧
  (opcodeWord defaultOpcodeMap .dec = 0x03 ∧ ∀ s, writesAx .dec s fun r => (r.toNat : Int) = ((s.ax.toNat : Int) - 1) % 2 ^ 64) ∧
  (opcodeWord defaultOpcodeMap .neg = 0x04 ∧ ∀ s, writesAx .neg s fun r => (r.toNat : Int) = (0 - (s.ax.toNat : Int)) % 2 ^ 64)

/-- 41_integer.md R113, R114, R115, on exact integers reduced by `trunc_W`. -/
def Obligations.IntegerBinaryResults : Prop :=
  (opcodeWord defaultOpcodeMap .add = 0x05 ∧
    ∀ s, writesAx .add s fun r => (r.toNat : Int) = ((s.ax.toNat : Int) + s.bx.toNat) % 2 ^ 64) ∧
  (opcodeWord defaultOpcodeMap .sub = 0x06 ∧
    ∀ s, writesAx .sub s fun r => (r.toNat : Int) = ((s.ax.toNat : Int) - s.bx.toNat) % 2 ^ 64) ∧
  (opcodeWord defaultOpcodeMap .mul = 0x07 ∧
    ∀ s, writesAx .mul s fun r => (r.toNat : Int) = ((s.ax.toNat : Int) * s.bx.toNat) % 2 ^ 64)

/-- 41_integer.md R117: the same instructions give the two's-complement wrapped result of the SignedWord views. -/
def Obligations.IntegerResultsAreTwosComplement : Prop :=
  ∀ s : State,
    writesAx .inc s (fun r => sw r = wrapSigned (sw s.ax + 1)) ∧
    writesAx .dec s (fun r => sw r = wrapSigned (sw s.ax - 1)) ∧
    writesAx .neg s (fun r => sw r = wrapSigned (-sw s.ax)) ∧
    writesAx .add s (fun r => sw r = wrapSigned (sw s.ax + sw s.bx)) ∧
    writesAx .sub s (fun r => sw r = wrapSigned (sw s.ax - sw s.bx)) ∧
    writesAx .mul s (fun r => sw r = wrapSigned (sw s.ax * sw s.bx))

/-- 41_integer.md R116 in both modes, 60_exceptions.md R306. -/
def Obligations.DivFollowsDefectMode : Prop :=
  opcodeWord defaultOpcodeMap .div = 0x08 ∧ ∀ s : State,
    if s.bx = 0 then exec .div s = .next (faulted s .divideByZero)
    else
      match s.params.defectMode with
      | .corrected => ∃ t, exec .div s = .next t ∧ t = { s with ax := t.ax, bx := t.bx, ip := s.ip + 1 } ∧
          t.ax.toNat = s.ax.toNat / s.bx.toNat ∧ t.bx.toNat = s.ax.toNat % s.bx.toNat
      | .literal =>
        if s.ax.toNat % s.bx.toNat = 0 then exec .div s = .next (faulted s .divideByZero)
        else ∃ t, exec .div s = .next t ∧ t = { s with ax := t.ax, bx := t.bx, ip := s.ip + 1 } ∧
          t.bx.toNat = s.ax.toNat % s.bx.toNat ∧ t.ax.toNat = s.ax.toNat / (s.ax.toNat % s.bx.toNat)

/-! ## Float arithmetic and conversions -/

/-- 48_convert.md R274: `bits(real(w)) = w` for every Word. -/
def Obligations.RealViewRoundTrips : Prop := ∀ w : Word, bits (real w) = w

/-- 42_float.md R131: FNEG flips bit 63 and no other bit; as a Real it negates, and a NaN keeps its payload. -/
def Obligations.FnegFlipsTheSign : Prop :=
  opcodeWord defaultOpcodeMap .fneg = 0x09 ∧
  ∀ s, writesAx .fneg s fun r =>
    (∀ k, k < 63 → r.getLsbD k = s.ax.getLsbD k) ∧ r.getLsbD 63 = !s.ax.getLsbD 63 ∧
    match real s.ax with
    | .finite neg m => real r = .finite (!neg) m
    | .inf neg => real r = .inf (!neg)
    | .nan neg f => real r = .nan (!neg) f

/-- 42_float.md R130: FADD, FSUB, FMUL and FDIV complete in every state and change `ax` and `ip` (and the model's count
of draws, log 8) only; the result is a NaN exactly for a NaN operand and the IEEE 754 invalid operations, and then it
is a quiet NaN of which nothing else is said. The list of invalid operations is IEEE 754's, PRESUMED (log 20); that the
NaN is quiet is the model's choice between R5 and R130 and decision D15, which allows any NaN (log 8). -/
def Obligations.FloatArithmeticCompletes : Prop :=
  ∀ s : State, ∀ p ∈ ([(.fadd, fun x y => ∃ a, x = .inf a ∧ y = .inf !a), (.fsub, fun x y => ∃ a, x = .inf a ∧ y = .inf a),
      (.fmul, fun x y => ∃ a b, (x = .inf a ∧ y = .finite b 0) ∨ (x = .finite a 0 ∧ y = .inf b)),
      (.fdiv, fun x y => ∃ a b, (x = .inf a ∧ y = .inf b) ∨ (x = .finite a 0 ∧ y = .finite b 0))] :
      List (Instr × (Real64 → Real64 → Prop))),
    ∃ t, exec p.1 s = .next t ∧ t = { s with ax := t.ax, nanDraws := t.nanDraws, ip := s.ip + 1 } ∧
      (isNaN (real t.ax) = true ↔
        isNaN (real s.ax) = true ∨ isNaN (real s.bx) = true ∨ p.2 (real s.ax) (real s.bx)) ∧
      (isNaN (real t.ax) = true → isQuietNaN t.ax = true ∧ t.nanDraws = s.nanDraws + 1) ∧
      (isNaN (real t.ax) = false → t.nanDraws = s.nanDraws)

/-- 42_float.md R130, R132, R133: on finite operands FADD and FSUB give the exact sum or difference, rounded to nearest
with ties to even; an exact zero is `-0` only when both summands are negative. The sign of a zero sum of two zeros and
the overflow threshold are IEEE 754's, PRESUMED (log 20). -/
def Obligations.FloatSumsRoundToNearestEven : Prop :=
  ∀ (s : State) (a b : Bool) (m n : Nat), real s.ax = .finite a m → real s.bx = .finite b n →
    writesAx .fadd s (fun r =>
      (signedMag a m + signedMag b n = 0 → real r = .finite (a && b) 0) ∧
      (signedMag a m + signedMag b n ≠ 0 →
        nearestEven (decide (signedMag a m + signedMag b n < 0)) (signedMag a m + signedMag b n).natAbs 1 r)) ∧
    writesAx .fsub s (fun r =>
      (signedMag a m - signedMag b n = 0 → real r = .finite (a && !b) 0) ∧
      (signedMag a m - signedMag b n ≠ 0 →
        nearestEven (decide (signedMag a m - signedMag b n < 0)) (signedMag a m - signedMag b n).natAbs 1 r))

/-- 42_float.md R130, R134, R135: on finite operands FMUL gives the exact product, and FDIV by a nonzero divisor the
exact quotient, rounded to nearest with ties to even, subnormals kept. The sign of a product and of a quotient and the
overflow threshold are IEEE 754's, PRESUMED (log 20). -/
def Obligations.FloatProductsRoundToNearestEven : Prop :=
  ∀ (s : State) (a b : Bool) (m n : Nat), real s.ax = .finite a m → real s.bx = .finite b n →
    writesAx .fmul s (nearestEven (a ^^ b) (m * n) (2 ^ 1074)) ∧
    (n ≠ 0 → writesAx .fdiv s (nearestEven (a ^^ b) (m * 2 ^ 1074) n))

/-- 42_float.md R130, R135: one or two infinite operands, where the result is no NaN, and division by zero give IEEE
754's infinities and signed zeros and do not fault. Which ones beyond the examples of R130 and R135 is IEEE 754's rule, PRESUMED (log 20). -/
def Obligations.FloatInfinitiesAndZeroDivisors : Prop :=
  ∀ (s : State) (a b : Bool) (m n : Nat),
    (real s.ax = .finite a m → m ≠ 0 → real s.bx = .finite b 0 → writesAx .fdiv s fun r => real r = .inf (a ^^ b)) ∧
    (real s.ax = .finite a m → real s.bx = .inf b →
      (writesAx .fdiv s fun r => real r = .finite (a ^^ b) 0) ∧ (writesAx .fadd s fun r => real r = .inf b) ∧
      (writesAx .fsub s fun r => real r = .inf !b) ∧
      (m ≠ 0 → writesAx .fmul s fun r => real r = .inf (a ^^ b))) ∧
    (real s.ax = .inf a → real s.bx = .finite b n →
      (writesAx .fdiv s fun r => real r = .inf (a ^^ b)) ∧ (writesAx .fadd s fun r => real r = .inf a) ∧
      (writesAx .fsub s fun r => real r = .inf a) ∧
      (n ≠ 0 → writesAx .fmul s fun r => real r = .inf (a ^^ b))) ∧
    (real s.ax = .inf a → real s.bx = .inf b →
      (a = b → writesAx .fadd s fun r => real r = .inf a) ∧ (a ≠ b → writesAx .fsub s fun r => real r = .inf a) ∧
      writesAx .fmul s fun r => real r = .inf (a ^^ b))

/-- 48_convert.md R270, R271: CWTOR and CSWTOR give the integer rounded to nearest, ties to even; 0 gives `+0`. -/
def Obligations.IntegerToRealRoundsToNearestEven : Prop :=
  opcodeWord defaultOpcodeMap .cwtor = 0x36 ∧ opcodeWord defaultOpcodeMap .cswtor = 0x37 ∧ ∀ s : State,
    writesAx .cwtor s (nearestEven false (s.ax.toNat * 2 ^ 1074) 1) ∧
    writesAx .cswtor s (nearestEven (decide (sw s.ax < 0)) ((sw s.ax).natAbs * 2 ^ 1074) 1)

/-- 48_convert.md R272, R273: CRTOW and CRTOSW truncate toward zero, saturate to the range of the target, and give 0
for a NaN. -/
def Obligations.RealToIntegerTruncatesAndSaturates : Prop :=
  opcodeWord defaultOpcodeMap .crtow = 0x38 ∧ opcodeWord defaultOpcodeMap .crtosw = 0x39 ∧ ∀ s : State,
    writesAx .crtow s (fun r => match real s.ax with
      | .nan _ _ => r = 0
      | .inf neg => r.toNat = if neg then 0 else 2 ^ 64 - 1
      | .finite neg m => r.toNat = if neg then 0 else min (m / 2 ^ 1074) (2 ^ 64 - 1)) ∧
    writesAx .crtosw s (fun r => match real s.ax with
      | .nan _ _ => r = 0
      | .inf neg => sw r = if neg then -2 ^ 63 else 2 ^ 63 - 1
      | .finite neg m => sw r =
          if neg then max (-2 ^ 63) (-((m / 2 ^ 1074 : Nat) : Int)) else min (2 ^ 63 - 1) ((m / 2 ^ 1074 : Nat) : Int))

/-! ## Bitwise -/

/-- 43_bitwise.md R150, R151, R152, R153, bit by bit. -/
def Obligations.BitwiseResults : Prop :=
  (opcodeWord defaultOpcodeMap .and = 0x0E ∧
    ∀ s, writesAx .and s fun r => ∀ k, r.getLsbD k = (s.ax.getLsbD k && s.bx.getLsbD k)) ∧
  (opcodeWord defaultOpcodeMap .or = 0x0F ∧
    ∀ s, writesAx .or s fun r => ∀ k, r.getLsbD k = (s.ax.getLsbD k || s.bx.getLsbD k)) ∧
  (opcodeWord defaultOpcodeMap .xor = 0x10 ∧
    ∀ s, writesAx .xor s fun r => ∀ k, r.getLsbD k = (s.ax.getLsbD k ^^ s.bx.getLsbD k)) ∧
  (opcodeWord defaultOpcodeMap .not = 0x11 ∧ ∀ s, writesAx .not s fun r => r.toNat = 2 ^ 64 - 1 - s.ax.toNat)

/-- 43_bitwise.md R154, R155, 60_exceptions.md R307: the whole of `bx` is the amount; 64 or more faults. -/
def Obligations.ShiftResults : Prop :=
  opcodeWord defaultOpcodeMap .shl = 0x12 ∧ opcodeWord defaultOpcodeMap .shr = 0x13 ∧ ∀ s : State,
    if 64 ≤ s.bx.toNat then
      exec .shl s = .next (faulted s (.shiftOverflow s.bx)) ∧ exec .shr s = .next (faulted s (.shiftOverflow s.bx))
    else
      writesAx .shl s (fun r => r.toNat = s.ax.toNat * 2 ^ s.bx.toNat % 2 ^ 64) ∧
      writesAx .shr s (fun r => r.toNat = s.ax.toNat / 2 ^ s.bx.toNat)

/-! ## Jumps -/

/-- 44_jumps.md R170: every jump completes in every state, writes `ip` only, and goes to `dx` or to `ip + 1`; JMP always
to `dx` (R171). -/
def Obligations.JumpsWriteOnlyIp : Prop :=
  ∀ i ∈ jumps, ∀ s : State, ∃ t, exec i s = .next t ∧ t = { s with ip := t.ip } ∧
    (t.ip = s.dx ∨ (i ≠ .jmp ∧ t.ip = s.ip + 1))

/-- 44_jumps.md R171. -/
def Obligations.JmpGoesToDx : Prop :=
  opcodeWord defaultOpcodeMap .jmp = 0x14 ∧ ∀ s, exec .jmp s = .next { s with ip := s.dx }

/-- 44_jumps.md R172, R173, R178, R179, R180, R181: the same condition in both modes, on unsigned values. -/
def Obligations.EqualityAndUnsignedJumps : Prop :=
  ∀ p ∈ ([(.je, 0x15, fun a b => decide (a = b)), (.jne, 0x16, fun a b => decide (a ≠ b)),
      (.ja, 0x1B, fun a b => decide (a > b)), (.jae, 0x1C, fun a b => decide (a ≥ b)),
      (.jb, 0x1D, fun a b => decide (a < b)), (.jbe, 0x1E, fun a b => decide (a ≤ b))] :
      List (Instr × Word × (Nat → Nat → Bool))),
    opcodeWord defaultOpcodeMap p.1 = p.2.1 ∧
    ∀ s : State, exec p.1 s = .next { s with ip := if p.2.2 s.ax.toNat s.bx.toNat then s.dx else s.ip + 1 }

/-- 44_jumps.md R174, R175, R176, R177: CORRECTED compares two's-complement values of `ax` and `bx`; LITERAL never takes
JG and JL and always takes JGE and JLE. -/
def Obligations.SignedJumps : Prop :=
  ∀ p ∈ ([(.jg, 0x17, fun a b => decide (a > b), false), (.jge, 0x18, fun a b => decide (a ≥ b), true),
      (.jl, 0x19, fun a b => decide (a < b), false), (.jle, 0x1A, fun a b => decide (a ≤ b), true)] :
      List (Instr × Word × (Int → Int → Bool) × Bool)),
    opcodeWord defaultOpcodeMap p.1 = p.2.1 ∧
    ∀ s : State, exec p.1 s = .next { s with
      ip := if (match s.params.defectMode with
          | .corrected => p.2.2.1 s.ax.toInt s.bx.toInt
          | .literal => p.2.2.2) then s.dx else s.ip + 1 }

/-- 44_jumps.md R182, R183, R184, R185: CORRECTED makes the ordered comparison of `ax` and `bx`, false for a NaN and
with the two zeros equal; LITERAL never takes FJG and FJL and takes FJGE and FJLE unless `ax` is a NaN. -/
def Obligations.FloatJumps : Prop :=
  opcodeWord defaultOpcodeMap .fjg = 0x1F ∧ opcodeWord defaultOpcodeMap .fjge = 0x20 ∧
  opcodeWord defaultOpcodeMap .fjl = 0x21 ∧ opcodeWord defaultOpcodeMap .fjle = 0x22 ∧
  (∀ s : State, s.params.defectMode = .corrected → ∀ x y, real s.ax = x → real s.bx = y →
    (∃ t, exec .fjg s = .next { s with ip := t } ∧ ((below y x ∧ t = s.dx) ∨ (¬below y x ∧ t = s.ip + 1))) ∧
    (∃ t, exec .fjge s = .next { s with ip := t } ∧
      (((below y x ∨ sameValue x y) ∧ t = s.dx) ∨ (¬(below y x ∨ sameValue x y) ∧ t = s.ip + 1))) ∧
    (∃ t, exec .fjl s = .next { s with ip := t } ∧ ((below x y ∧ t = s.dx) ∨ (¬below x y ∧ t = s.ip + 1))) ∧
    (∃ t, exec .fjle s = .next { s with ip := t } ∧
      (((below x y ∨ sameValue x y) ∧ t = s.dx) ∨ (¬(below x y ∨ sameValue x y) ∧ t = s.ip + 1)))) ∧
  (∀ s : State, s.params.defectMode = .literal →
    exec .fjg s = .next { s with ip := s.ip + 1 } ∧ exec .fjl s = .next { s with ip := s.ip + 1 } ∧
    exec .fjge s = .next { s with ip := if isNaN (real s.ax) then s.ip + 1 else s.dx } ∧
    exec .fjle s = .next { s with ip := if isNaN (real s.ax) then s.ip + 1 else s.dx })

/-! ## SYSCALL and the host -/

/-- 46_syscall.md R212: syscall 0 writes the characters and asks for a flush, or stops at the first Word it may not
write, with the characters before it kept in the output; when the host acknowledges the flush it completes. The count
of acknowledgements is the model's (log 9), and so is the completion in a second step (log 17). -/
def Obligations.SyscallWrite : Prop :=
  ∀ s : State, s.ax = 0 →
    ((∀ k, k < s.cx.toNat → s.dx.toNat + k < s.params.memWords.toNat ∧
        isScalarValue (s.mem.read (s.dx.toNat + k)) = true) →
      ∃ t, exec .syscall s = .next t ∧
        t = { s with
          dx := s.dx + s.cx, cx := 0, runState := .blockedOut,
          output := s.output ++ (List.range s.cx.toNat).map (fun k => .char (s.mem.read (s.dx.toNat + k))) ++ [.flush] } ∧
        ∀ n, t.acks = n + 1 → step t = .next { t with acks := n, runState := .running, ip := s.ip + 1 }) ∧
    (∀ k, k < s.cx.toNat →
      (∀ j, j < k → s.dx.toNat + j < s.params.memWords.toNat ∧
        isScalarValue (s.mem.read (s.dx.toNat + j)) = true) →
      (s.params.memWords.toNat ≤ s.dx.toNat + k →
        exec .syscall s = .next (faulted
          { s with output := s.output ++ (List.range k).map (fun j => .char (s.mem.read (s.dx.toNat + j))) }
          (.outOfBounds (BitVec.ofNat 64 (s.dx.toNat + k))))) ∧
      (s.dx.toNat + k < s.params.memWords.toNat → isScalarValue (s.mem.read (s.dx.toNat + k)) = false →
        exec .syscall s = .next (faulted
          { s with output := s.output ++ (List.range k).map (fun j => .char (s.mem.read (s.dx.toNat + j))) }
          (.invalidCodePoint (s.mem.read (s.dx.toNat + k))))))

/-- 46_syscall.md R213: syscall 1 blocks; the line the host delivers is stored from `dx` up and no register changes, or,
if it does not fit, it is used up, nothing is stored and the core faults. The list of lines is the model's (log 9), and
so is the store in a second step (log 17). -/
def Obligations.SyscallReadLine : Prop :=
  (∀ s : State, s.ax = 1 → exec .syscall s = .next { s with runState := .blockedIn }) ∧
  ∀ (s : State) (ws : List Word) (later : List (List Word)), s.runState = .blockedIn → s.lines = ws :: later →
    if ws.length = 0 ∨ s.dx.toNat + ws.length - 1 < s.params.memWords.toNat then
      ∃ t, step s = .next t ∧
        t = { s with lines := later, runState := .running, mem := t.mem, ip := s.ip + 1 } ∧
        (∀ (k : Nat) (w : Word), ws[k]? = some w → t.mem.read (s.dx.toNat + k) = w) ∧
        ∀ a, a < s.dx.toNat ∨ s.dx.toNat + ws.length ≤ a → t.mem.read a = s.mem.read a
    else
      step s = .next (faulted { s with lines := later }
        (.outOfBounds (if s.dx.toNat < s.params.memWords.toNat then s.params.memWords else s.dx)))

/-- 46_syscall.md R214: syscall 2 sets `ax` and the terminal `ip`, and the next step halts with that exit value. -/
def Obligations.SyscallTerminate : Prop :=
  ∀ s : State, s.ax = 2 →
    exec .syscall s = .next { s with ax := s.dx, ip := s.params.memWords } ∧
    (s.runState = .running → step { s with ax := s.dx, ip := s.params.memWords } =
      .next { s with ax := s.dx, ip := s.params.memWords, runState := .halted, exitValue := s.dx })

/-- 46_syscall.md R215, 60_exceptions.md R304. -/
def Obligations.UnknownSelectorFaults : Prop :=
  opcodeWord defaultOpcodeMap .syscall = 0x25 ∧ ∀ s : State, s.ax ≠ 0 → s.ax ≠ 1 → s.ax ≠ 2 →
    exec .syscall s = .next (faulted s (.unknownSyscall s.ax))

/-- 46_syscall.md R216: a blocked core takes no step until the host answers, and an acknowledged flush completes its
syscall. The two lists of answers are the model's (log 9). -/
def Obligations.BlockedCoreWaitsForTheHost : Prop :=
  (∀ s : State, s.runState = .blockedOut → s.acks = 0 → step s = .next s) ∧
  (∀ (s : State) (n : Nat), s.runState = .blockedOut → s.acks = n + 1 →
    step s = .next { s with acks := n, runState := .running, ip := s.ip + 1 }) ∧
  (∀ s : State, s.runState = .blockedIn → s.lines = [] → step s = .next s)

/-- 46_syscall.md R217, 10_state.md R30: an instruction other than SYSCALL leaves the host channels alone; SYSCALL may
only append to the output. The lists of host answers are the model's (log 9). Executing SYSCALL leaves them too only
because the model takes the host's answer in a second step (log 17): syscall 0 uses up its acknowledgement and syscall
1 its line (46_syscall.md R213, R216) in the step that completes it. -/
def Obligations.OnlySyscallReachesTheHost : Prop :=
  ∀ (i : Instr) (s t : State), exec i s = .next t →
    t.lines = s.lines ∧ t.acks = s.acks ∧ t.commands = s.commands ∧
    (i ≠ .syscall → t.output = s.output) ∧ ∃ more, t.output = s.output ++ more

/-- 60_exceptions.md R313, 20_memory.md R65: what the host has yet to say does not change what an instruction does. The
lists of host answers are the model's (log 9), and so is that SYSCALL takes its answer in a second step (log 17). -/
def Obligations.InstructionsIgnorePendingHostAnswers : Prop :=
  ∀ (i : Instr) (s t : State) (ls : List (List Word)) (n : Nat) (cs : List Command), exec i s = .next t →
    exec i { s with lines := ls, acks := n, commands := cs } = .next { t with lines := ls, acks := n, commands := cs }

/-! ## Moves and the reserved instruction -/

/-- 47_move.md R240, R241, R242, R243, fetched and executed. -/
def Obligations.ImmediateLoads : Prop :=
  ∀ p ∈ ([(.moveOpToAx, .ax, 0x26), (.moveOpToBx, .bx, 0x27), (.moveOpToCx, .cx, 0x28), (.moveOpToDx, .dx, 0x29)] :
      List ((Word → Instr) × Reg × Word)),
    opcodeWord defaultOpcodeMap (p.1 0) = p.2.2 ∧
    (∀ (imm : Word) (s : State), exec (p.1 imm) s = .next { s.set p.2.1 imm with ip := s.ip + 2 }) ∧
    ∀ s : State, s.runState = .running → OpcodeMap.ok s.params.opcodeMap = true →
      s.ip.toNat < s.params.memWords.toNat → s.mem.read s.ip.toNat = opcodeWord s.params.opcodeMap (p.1 0) →
      if s.ip.toNat + 1 < s.params.memWords.toNat then
        step s = .next { s.set p.2.1 (s.mem.read (s.ip.toNat + 1)) with ip := s.ip + 2 }
      else step s = .next (faulted s (.outOfBounds (s.ip + 1)))

/-- 47_move.md R250 to R261. -/
def Obligations.RegisterMovesCopy : Prop :=
  ∀ p ∈ ([(.moveAxToBx, .ax, .bx, 0x2A), (.moveAxToCx, .ax, .cx, 0x2B), (.moveAxToDx, .ax, .dx, 0x2C),
      (.moveBxToAx, .bx, .ax, 0x2D), (.moveBxToCx, .bx, .cx, 0x2E), (.moveBxToDx, .bx, .dx, 0x2F),
      (.moveCxToAx, .cx, .ax, 0x30), (.moveCxToBx, .cx, .bx, 0x31), (.moveCxToDx, .cx, .dx, 0x32),
      (.moveDxToAx, .dx, .ax, 0x33), (.moveDxToBx, .dx, .bx, 0x34), (.moveDxToCx, .dx, .cx, 0x35)] :
      List (Instr × Reg × Reg × Word)),
    opcodeWord defaultOpcodeMap p.1 = p.2.2.2 ∧
    ∀ s : State, ∃ t, exec p.1 s = .next t ∧ t.get p.2.2.1 = s.get p.2.1 ∧
      (∀ r, r ≠ p.2.2.1 → t.get r = s.get r) ∧
      t = { s with ax := t.ax, bx := t.bx, cx := t.cx, dx := t.dx, ip := s.ip + 1 }

/-- 49_reserved.md R280, 60_exceptions.md R308: DEREF always faults and records its opcode Word. -/
def Obligations.DerefAlwaysFaults : Prop :=
  opcodeWord defaultOpcodeMap .deref = 0x3A ∧
  ∀ s, exec .deref s = .next (faulted s (.reservedOpcode (opcodeWord s.params.opcodeMap .deref)))

/-! ## Faults -/

/-- 60_exceptions.md R305: an instruction that faults, at its fetch, in its execution or when its line comes, changes
nothing but the status and, for a syscall 0, the output it had appended; and then no further step is taken. That a
syscall 1 has used up its line (46_syscall.md R213) is said of the model's list of lines (log 9, 27), and that no step
is taken as a step to the same state (log 11). -/
def Obligations.FaultsArePrecise : Prop :=
  ∀ s t : State, s.runState = .running ∨ s.runState = .blockedIn → step s = .next t → t.runState = .faulted →
    (∃ c more, c ≠ .none ∧ t = faulted { s with output := s.output ++ more, lines := t.lines } c ∧
      (more ≠ [] → s.mem.read s.ip.toNat = opcodeWord s.params.opcodeMap .syscall ∧ s.ax = 0) ∧
      t.lines = if s.runState = .blockedIn then s.lines.tail else s.lines) ∧
    step t = .next t

/-- 60_exceptions.md R300, R301, R311: which instruction can raise which cause when `exec` runs it; no other does there.
Two OUT_OF_BOUNDS faults of R301 are raised outside `exec` in this model and so are not in the list: that of an
immediate load at the last address, at its fetch (log 16; `Obligations.ImmediateLoads`), and that of a syscall 1 whose
line does not fit, in the step that takes the line (log 17; `Obligations.SyscallReadLine`). -/
def Obligations.FaultCausesByInstruction : Prop :=
  ∀ (i : Instr) (s t : State), s.runState ≠ .faulted → exec i s = .next t → t.runState = .faulted →
    (t.faultCause.code = 2 ∧ i = .syscall) ∨
    (t.faultCause.code = 3 ∧ (i = .push ∨ i = .pop ∨ i = .call ∨ i = .ret ∨ (i = .syscall ∧ s.ax = 0))) ∨
    (t.faultCause.code = 6 ∧ i = .div) ∨
    (t.faultCause.code = 7 ∧ (i = .shl ∨ i = .shr)) ∨
    (t.faultCause.code = 8 ∧ i = .deref) ∨
    (t.faultCause.code = 9 ∧ i = .syscall ∧ s.ax = 0)

/-- 60_exceptions.md R302: at W = 64 no step raises CAST_FAILURE. -/
def Obligations.CastFailureIsNeverRaised : Prop :=
  ∀ s t : State, s.faultCause ≠ .castFailure → step s = .next t → t.faultCause ≠ .castFailure

/-! ## Memory, pointers and sequencing -/

/-- 20_memory.md R52, with 70_reset_and_hazards.md R330: memory changes only at `sp - 1` for a PUSH or CALL, at `dx` to
`dx + m - 1` for a line of `m` Words delivered to a syscall 1, and at 0 to `len - 1` for a `load`. Executing an instruction
writes memory for PUSH and CALL only, since a syscall 1 stores its line in the step after the delivery (log 17); the
lists of lines and transactions are the model's (log 9). -/
def Obligations.MemoryChangesOnlyWhereWritten : Prop :=
  (∀ (i : Instr) (s t : State), exec i s = .next t →
    ((i ≠ .push ∧ i ≠ .call) → t.mem = s.mem) ∧
    ∀ a, a ≠ (s.sp - 1).toNat → t.mem.read a = s.mem.read a) ∧
  ∀ (s t : State) (a : Nat), step s = .next t → t.mem.read a ≠ s.mem.read a →
    a < s.params.memWords.toNat ∧
    ((s.runState = .running ∧ a = (s.sp - 1).toNat ∧
        (s.mem.read s.ip.toNat = opcodeWord s.params.opcodeMap .push ∨
         s.mem.read s.ip.toNat = opcodeWord s.params.opcodeMap .call)) ∨
     (s.runState = .blockedIn ∧ ∃ ws later, s.lines = ws :: later ∧ s.dx.toNat ≤ a ∧ a < s.dx.toNat + ws.length) ∨
     (s.runState = .reset ∧ ∃ words entry later, s.commands = .load words entry :: later ∧ a < words.length))

/-- 10_state.md R33: an instruction that does not fault or block ends with exactly one of the three ways of writing
`ip`. Syscalls 0 and 1 block and advance `ip` in the step that completes them (log 17). -/
def Obligations.InstructionsAdvanceByFormat : Prop :=
  ∀ (i : Instr) (s t : State), s.runState = .running → exec i s = .next t → t.runState = .running →
    if i.operandWords ≠ [] then t.ip = s.ip + 2
    else if i = .jmp ∨ i = .call then t.ip = s.dx
    else if i = .ret then t.ip = s.mem.read s.sp.toNat
    else if i = .syscall then t.ip = s.params.memWords
    else if i ∈ jumps then t.ip = s.dx ∨ t.ip = s.ip + 1
    else t.ip = s.ip + 1

/-- 10_state.md R24: `ip` never wraps: a step from a running state in memory leaves `ip` where it was (a fault or a
wait), one or two higher without wrapping, or at a Word taken from `dx`, from the stack or from MEM_WORDS. Under the
invariant, every step does, the completions of blocked syscalls included, or sets `ip` to the entry of a `load` (R23). -/
def Obligations.IpNeverWraps : Prop :=
  (∀ s t : State, s.runState = .running → s.ip.toNat < s.params.memWords.toNat → step s = .next t →
    t.ip = s.ip ∨ t.ip.toNat = s.ip.toNat + 1 ∨ t.ip.toNat = s.ip.toNat + 2 ∨ t.ip = s.dx ∨
      t.ip = s.mem.read s.sp.toNat ∨ t.ip = s.params.memWords) ∧
  ∀ s t : State, s.Inv → step s = .next t →
    t.ip = s.ip ∨
    (s.ip.toNat < s.params.memWords.toNat ∧
      ((t.ip.toNat = s.ip.toNat + 1 ∧
          (s.runState = .running ∨ s.runState = .blockedOut ∨ s.runState = .blockedIn)) ∨
       (s.runState = .running ∧
        (t.ip.toNat = s.ip.toNat + 2 ∨ t.ip = s.dx ∨ t.ip = s.mem.read s.sp.toNat ∨ t.ip = s.params.memWords)))) ∨
    (s.runState = .reset ∧ ∃ words entry later, s.commands = .load words entry :: later ∧ t.ip = entry)

/-- 10_state.md R26, 70_reset_and_hazards.md R330: no step changes the parameters, and only `start` writes `fp` and
`lp`. -/
def Obligations.ParametersAndReservedPointersStay : Prop :=
  ∀ s t : State, step s = .next t →
    t.params = s.params ∧
    ((t.fp = s.fp ∧ t.lp = s.lp) ∨
     (s.runState = .loaded ∧ t.runState = .running ∧ t.fp = s.params.memWords ∧ t.lp = s.params.memWords - 1))

/-! ## Power-up, load and start -/

/-- 70_reset_and_hazards.md R330, 10_state.md R30, 00_scope.md R5: what the spec says of power-up, and the defaults. -/
def Obligations.PowerUpState : Prop :=
  State.reset.runState = .reset ∧ State.reset.faultCause = .none ∧ State.reset.output = [] ∧
  State.reset.params.defectMode = .literal ∧ State.reset.params.opcodeMap = defaultOpcodeMap ∧
  State.reset.params.ok = true

/-- 70_reset_and_hazards.md R330, 60_exceptions.md R310: `load` in RESET, and `load` ignored in every other state. The list
of transactions is the model's (log 9): LOADED uses a `load` up and changes nothing else, the other states do not read
the list (log 19). -/
def Obligations.LoadCopiesTheImage : Prop :=
  (∀ (s : State) (words : List Word) (entry : Word) (later : List Command), s.runState = .reset →
    s.commands = .load words entry :: later →
    if words.length ≤ s.params.memWords.toNat then
      ∃ t, step s = .next t ∧ t = { s with commands := later, mem := t.mem, ip := entry, runState := .loaded } ∧
        (∀ (k : Nat) (w : Word), words[k]? = some w → t.mem.read k = w) ∧ ∀ a, words.length ≤ a → t.mem.read a = s.mem.read a
    else step s = .next (faulted { s with commands := later } (.imageTooLarge words.length))) ∧
  (∀ (s : State) (words : List Word) (entry : Word), s.runState ≠ .reset → s.load words entry = s) ∧
  (∀ (s : State) (words : List Word) (entry : Word) (later : List Command), s.runState = .loaded →
    s.commands = .load words entry :: later → step s = .next { s with commands := later }) ∧
  ∀ s : State, s.runState ≠ .reset → s.runState ≠ .loaded → ignoresCommands s

/-- 70_reset_and_hazards.md R331: `start` in LOADED, and `start` ignored in every other state. The list of transactions
is the model's (log 9): RESET uses a `start` up and changes nothing else, the other states do not read the list
(log 19). -/
def Obligations.StartSetsThePointers : Prop :=
  (∀ (s : State) (later : List Command), s.runState = .loaded → s.commands = .start :: later →
    step s = .next { s with
      commands := later, sp := s.params.memWords, fp := s.params.memWords,
      lp := s.params.memWords - 1, runState := .running }) ∧
  (∀ s : State, s.runState ≠ .loaded → s.start = s) ∧
  (∀ (s : State) (later : List Command), s.runState = .reset → s.commands = .start :: later →
    step s = .next { s with commands := later }) ∧
  ∀ s : State, s.runState ≠ .reset → s.runState ≠ .loaded → ignoresCommands s

/-- 70_reset_and_hazards.md R332: the state at the first fetch, from any power-up state, any image that fits and any
entry point. That `load` and `start` are two steps taken from a list of transactions is the model's (log 9, 10). -/
def Obligations.StateAtFirstFetch : Prop :=
  ∀ (s : State) (words : List Word) (entry : Word) (later : List Command), s.runState = .reset →
    s.faultCause = .none → s.output = [] → s.commands = .load words entry :: .start :: later →
    words.length ≤ s.params.memWords.toNat →
    ∃ t u, step s = .next t ∧ step t = .next u ∧
      u.ax = s.ax ∧ u.bx = s.bx ∧ u.cx = s.cx ∧ u.dx = s.dx ∧ u.ip = entry ∧
      u.sp = s.params.memWords ∧ u.fp = s.params.memWords ∧ u.lp = s.params.memWords - 1 ∧
      (∀ (k : Nat) (w : Word), words[k]? = some w → u.mem.read k = w) ∧
      (∀ a, words.length ≤ a → u.mem.read a = s.mem.read a) ∧
      u.runState = .running ∧ u.faultCause = .none ∧ u.output = []

/-- 70_reset_and_hazards.md R336: an entry point at or above MEM_WORDS halts at once with `ax` as the exit value and no
instruction run. That this is the third step, after one for `load` and one for `start` taken from a list of
transactions, is the model's (log 9, 10). -/
def Obligations.EntryBeyondMemoryHaltsAtOnce : Prop :=
  ∀ (s : State) (words : List Word) (entry : Word) (later : List Command), s.runState = .reset →
    s.commands = .load words entry :: .start :: later → words.length ≤ s.params.memWords.toNat →
    s.params.memWords.toNat ≤ entry.toNat →
    ∃ t u v, step s = .next t ∧ step t = .next u ∧ step u = .next v ∧ v.succeeded s.ax ∧ v.ip = entry ∧
      v.output = s.output

/-! ## The invariant -/

/-- The invariant holds at power-up. `sp`, MEM_WORDS, the unlisted Word and EXIT_VALUE of `State.reset` are the model's
choices (log 2, 4, 5, 14). -/
def Obligations.InvariantHoldsAtPowerUp : Prop := State.reset.Inv

/-- Every step keeps the invariant: the parameters stay legal, memory stays inside its bounds and in canonical form
(which is the model's own, log 1 and 2), `sp` stays in range (40_stack.md R102), the status fields agree (10_state.md
R28), a halted core stands past memory and a blocked one at its SYSCALL, and only Unicode scalar values are output
(46_syscall.md R212). -/
def Obligations.StepKeepsTheInvariant : Prop := ∀ s t : State, s.Inv → step s = .next t → t.Inv

/-! ## Host tools beside the core -/

/-- 70_reset_and_hazards.md R334: reading the file of an image gives its entry point and its Words back. -/
def Obligations.ImageFileRoundTrips : Prop :=
  ∀ (entry : Word) (words : List Word),
    readImage (imageBytes entry words) = some (entry, words) ∧ (imageBytes entry words).length = 8 * (words.length + 1)
end

