-- ==== Sys2Proof/Laws/Decode.lean ====
section
/-! SUPPORT. Laws of the opcode map and of the catalog (30_encoding.md R70 to R76). -/

namespace Sys2Proof

/-- The position found holds the opcode. -/
theorem opcodeIndex_getElem? {map : OpcodeMap} {op : Word} {n : Nat} (h : opcodeIndex map op = some n) :
    map[n]? = some op := by
  induction map generalizing n with
  | nil => simp [opcodeIndex] at h
  | cons v map ih =>
    unfold opcodeIndex at h
    split at h
    · next e => cases h; simp [e]
    · simp only [Option.map_eq_some_iff] at h
      obtain ⟨k, hk, rfl⟩ := h
      simpa using ih hk

/-- In an injective map the position of a value is found. -/
theorem opcodeIndex_of_nodup {map : OpcodeMap} (hn : map.Nodup) {op : Word} {n : Nat} (h : map[n]? = some op) :
    opcodeIndex map op = some n := by
  induction map generalizing n with
  | nil => simp at h
  | cons v map ih =>
    unfold opcodeIndex
    cases n with
    | zero => simp at h; simp [h]
    | succ n =>
      simp at h
      have : op ≠ v := by
        rintro rfl
        exact (List.nodup_cons.1 hn).1 (List.mem_of_getElem? h)
      simp [this, ih (List.nodup_cons.1 hn).2 h]

/-- No position is found exactly for a Word outside the map. -/
theorem opcodeIndex_none {map : OpcodeMap} {op : Word} : opcodeIndex map op = none ↔ op ∉ map := by
  induction map with
  | nil => simp [opcodeIndex]
  | cons v map ih =>
    unfold opcodeIndex
    by_cases h : op = v <;> simp [h, ih]

theorem OpcodeMap.ok_iff {map : OpcodeMap} : OpcodeMap.ok map = true ↔ map.length = 59 ∧ map.Nodup := by
  simp [OpcodeMap.ok, OpcodeMap.complete, OpcodeMap.injective]

/-- What a catalog position of format F1 holds. -/
theorem catalog_f1 {n : Nat} {i : Instr} (h : catalog n = some (.f1 i)) : i.index = n ∧ i.operandWords = [] := by
  unfold catalog at h
  split at h <;> simp at h <;> subst h <;> exact ⟨rfl, rfl⟩

/-- What a catalog position of format F2 holds. -/
theorem catalog_f2 {n : Nat} {b : Word → Instr} (h : catalog n = some (.f2 b)) (imm : Word) :
    (b imm).index = n ∧ (b imm).operandWords = [imm] := by
  unfold catalog at h
  split at h <;> simp at h <;> subst h <;> exact ⟨rfl, rfl⟩

/-- Every position below 59 is in the catalog. -/
theorem catalog_some {n : Nat} (h : n < 59) : catalog n ≠ none := by
  revert n; decide

/-- The opcode Word found at an instruction's position is the instruction's. -/
theorem opcodeWord_of {map : OpcodeMap} {op : Word} {n : Nat} (h : opcodeIndex map op = some n) {i : Instr}
    (hi : i.index = n) : opcodeWord map i = op := by
  subst hi
  simp [opcodeWord, List.getD_eq_getElem?_getD, opcodeIndex_getElem? h]

end Sys2Proof
end

