-- ==== Sys2Proof/Laws/Memory.lean ====
section
/-! SUPPORT. The laws of memory: a read after a write, and the canonical form every write keeps. -/

namespace Sys2Proof.Machine

theorem Memory.read_erase (m : Memory) (a b : Nat) :
    (Memory.erase m a).read b = if b = a then Memory.unlisted else m.read b := by
  induction m with
  | nil => simp [Memory.erase, Memory.read]
  | cons c m ih =>
    obtain ⟨x, w⟩ := c
    by_cases hx : a = x
    · subst hx
      by_cases hb : b = a
      · subst hb
        simpa [Memory.erase] using ih
      · simp [Memory.erase, Memory.read, ih, hb]
    · by_cases hb : b = x
      · have : b ≠ a := fun h => hx (h ▸ hb)
        simp [Memory.erase, Memory.read, hx, hb, Ne.symm hx]
      · simp [Memory.erase, Memory.read, hx, hb, ih]

theorem Memory.read_insert (m : Memory) (a b : Nat) (v : Word) :
    (Memory.insert m a v).read b = if b = a then v else m.read b := by
  induction m with
  | nil => simp [Memory.insert, Memory.read]
  | cons c m ih =>
    obtain ⟨x, w⟩ := c
    by_cases hlt : a < x
    · simp [Memory.insert, Memory.read, hlt]
    · by_cases hx : a = x
      · subst hx
        by_cases hb : b = a <;> simp [Memory.insert, Memory.read, hb]
      · by_cases hb : b = x
        · have : b ≠ a := fun h => hx (h ▸ hb)
          simp [Memory.insert, Memory.read, hlt, hx, hb, Ne.symm hx]
        · simp [Memory.insert, Memory.read, hlt, hx, hb, ih]

/-- What a read gives after a write, in every memory. -/
theorem Memory.read_write (m : Memory) (a b : Nat) (v : Word) :
    (Memory.write m a v).read b = if b = a then v else m.read b := by
  unfold Memory.write
  split
  · next h => rw [Memory.read_erase, h]
  · rw [Memory.read_insert]

@[simp] theorem Memory.read_write_same (m : Memory) (a : Nat) (v : Word) : (Memory.write m a v).read a = v := by
  simp [Memory.read_write]

theorem Memory.read_write_other (m : Memory) {a b : Nat} (h : b ≠ a) (v : Word) :
    (Memory.write m a v).read b = m.read b := by simp [Memory.read_write, h]

/-- What a read gives after Words are written from `a` up. -/
theorem Memory.read_writeList (m : Memory) (a b : Nat) (vs : List Word) :
    (Memory.writeList m a vs).read b = if a ≤ b then vs.getD (b - a) (m.read b) else m.read b := by
  induction vs generalizing m a with
  | nil => simp [Memory.writeList]
  | cons v vs ih =>
    rw [Memory.writeList, ih]
    by_cases h : a + 1 ≤ b
    · have hb : b ≠ a := by omega
      have hk : b - a = (b - (a + 1)) + 1 := by omega
      rw [if_pos h, if_pos (by omega), Memory.read_write_other _ hb, hk, List.getD_cons_succ]
    · rw [if_neg h]
      by_cases hb : b = a
      · subst hb
        simp
      · rw [if_neg (by omega), Memory.read_write_other _ hb]

theorem Memory.wfFrom_le {lo lo' : Nat} {m : Memory} (h : lo' ≤ lo) (hm : Memory.wfFrom lo m = true) :
    Memory.wfFrom lo' m = true := by
  cases m with
  | nil => rfl
  | cons c m =>
    simp only [Memory.wfFrom, Bool.and_eq_true, decide_eq_true_eq] at hm ⊢
    exact ⟨⟨by omega, hm.1.2⟩, hm.2⟩

theorem Memory.wfFrom_erase {lo : Nat} {m : Memory} (a : Nat) (hm : Memory.wfFrom lo m = true) :
    Memory.wfFrom lo (Memory.erase m a) = true := by
  induction m generalizing lo with
  | nil => rfl
  | cons c m ih =>
    obtain ⟨x, w⟩ := c
    simp only [Memory.wfFrom, Bool.and_eq_true, decide_eq_true_eq] at hm
    unfold Memory.erase
    split
    · exact Memory.wfFrom_le (by omega) (ih hm.2)
    · simp only [Memory.wfFrom, Bool.and_eq_true, decide_eq_true_eq]
      exact ⟨hm.1, ih hm.2⟩

theorem Memory.wfFrom_insert {lo a : Nat} {m : Memory} {v : Word} (ha : lo ≤ a) (hv : v ≠ Memory.unlisted)
    (hm : Memory.wfFrom lo m = true) : Memory.wfFrom lo (Memory.insert m a v) = true := by
  induction m generalizing lo with
  | nil => simp [Memory.insert, Memory.wfFrom, ha, hv]
  | cons c m ih =>
    obtain ⟨x, w⟩ := c
    simp only [Memory.wfFrom, Bool.and_eq_true, decide_eq_true_eq] at hm
    unfold Memory.insert
    split
    · simp only [Memory.wfFrom, Bool.and_eq_true, decide_eq_true_eq]
      exact ⟨⟨ha, hv⟩, ⟨by omega, hm.1.2⟩, hm.2⟩
    · split
      · next h =>
        subst h
        simp only [Memory.wfFrom, Bool.and_eq_true, decide_eq_true_eq]
        exact ⟨⟨ha, hv⟩, hm.2⟩
      · simp only [Memory.wfFrom, Bool.and_eq_true, decide_eq_true_eq]
        exact ⟨hm.1, ih (by omega) hm.2⟩

/-- A write keeps the canonical form. -/
theorem Memory.wf_write {m : Memory} (a : Nat) (v : Word) (hm : Memory.wf m = true) :
    Memory.wf (Memory.write m a v) = true := by
  unfold Memory.write
  split
  · exact Memory.wfFrom_erase a hm
  · next h => exact Memory.wfFrom_insert (Nat.zero_le a) h hm

theorem Memory.wf_writeList {m : Memory} (a : Nat) (vs : List Word) (hm : Memory.wf m = true) :
    Memory.wf (Memory.writeList m a vs) = true := by
  induction vs generalizing m a with
  | nil => exact hm
  | cons v vs ih => exact ih (a + 1) (Memory.wf_write a v hm)

theorem Memory.below_erase {limit : Nat} {m : Memory} (a : Nat) (hm : Memory.below limit m = true) :
    Memory.below limit (Memory.erase m a) = true := by
  induction m with
  | nil => rfl
  | cons c m ih =>
    obtain ⟨x, w⟩ := c
    simp only [Memory.below, List.all_cons, Bool.and_eq_true] at hm ih
    unfold Memory.erase
    split
    · exact ih hm.2
    · simp only [Memory.below, List.all_cons, Bool.and_eq_true]
      exact ⟨hm.1, ih hm.2⟩

theorem Memory.below_insert {limit a : Nat} {m : Memory} (v : Word) (ha : a < limit)
    (hm : Memory.below limit m = true) : Memory.below limit (Memory.insert m a v) = true := by
  induction m with
  | nil => simp [Memory.insert, Memory.below, ha]
  | cons c m ih =>
    obtain ⟨x, w⟩ := c
    have hm' := hm
    simp only [Memory.below, List.all_cons, Bool.and_eq_true, decide_eq_true_eq] at hm ih
    unfold Memory.insert
    split
    · simp only [Memory.below, List.all_cons, Bool.and_eq_true, decide_eq_true_eq]
      exact ⟨ha, hm⟩
    · split
      · simp only [Memory.below, List.all_cons, Bool.and_eq_true, decide_eq_true_eq]
        exact ⟨ha, hm.2⟩
      · simp only [Memory.below, List.all_cons, Bool.and_eq_true, decide_eq_true_eq]
        exact ⟨hm.1, ih hm.2⟩

/-- A write below the limit lists no address at or above it. -/
theorem Memory.below_write {limit a : Nat} {m : Memory} (v : Word) (ha : a < limit)
    (hm : Memory.below limit m = true) : Memory.below limit (Memory.write m a v) = true := by
  unfold Memory.write
  split
  · exact Memory.below_erase a hm
  · exact Memory.below_insert v ha hm

theorem Memory.below_writeList {limit a : Nat} {m : Memory} (vs : List Word) (ha : a + vs.length ≤ limit)
    (hm : Memory.below limit m = true) : Memory.below limit (Memory.writeList m a vs) = true := by
  induction vs generalizing m a with
  | nil => exact hm
  | cons v vs ih =>
    simp only [List.length_cons] at ha
    exact ih (by omega) (Memory.below_write v (by omega) hm)

theorem Memory.read_of_wfFrom_gt {lo : Nat} {m : Memory} (hm : Memory.wfFrom lo m = true) {a : Nat} (ha : a < lo) :
    m.read a = Memory.unlisted := by
  induction m generalizing lo with
  | nil => rfl
  | cons c m ih =>
    obtain ⟨x, w⟩ := c
    simp only [Memory.wfFrom, Bool.and_eq_true, decide_eq_true_eq] at hm
    rw [Memory.read, if_neg (by omega)]
    exact ih hm.2 (by omega)

/-- Two memories in canonical form that read alike everywhere are the same list. -/
theorem Memory.ext_of_wfFrom {lo lo' : Nat} {m m' : Memory} (hm : Memory.wfFrom lo m = true)
    (hm' : Memory.wfFrom lo' m' = true) (h : ∀ a, m.read a = m'.read a) : m = m' := by
  induction m generalizing lo lo' m' with
  | nil =>
    cases m' with
    | nil => rfl
    | cons c m' =>
      obtain ⟨x, w⟩ := c
      simp only [Memory.wfFrom, Bool.and_eq_true, decide_eq_true_eq] at hm'
      exact absurd (by simpa [Memory.read] using (h x).symm) hm'.1.2
  | cons c m ih =>
    obtain ⟨x, w⟩ := c
    simp only [Memory.wfFrom, Bool.and_eq_true, decide_eq_true_eq] at hm
    cases m' with
    | nil => exact absurd (by simpa [Memory.read] using h x) hm.1.2
    | cons c' m' =>
      obtain ⟨y, u⟩ := c'
      simp only [Memory.wfFrom, Bool.and_eq_true, decide_eq_true_eq] at hm'
      have hxy : x = y := by
        rcases lt_trichotomy x y with hlt | heq | hgt
        · have := h x
          rw [Memory.read, if_pos rfl, Memory.read, if_neg (by omega), Memory.read_of_wfFrom_gt hm'.2 (by omega)] at this
          exact absurd this hm.1.2
        · exact heq
        · have := h y
          rw [Memory.read, if_neg (by omega), Memory.read, if_pos rfl, Memory.read_of_wfFrom_gt hm.2 (by omega)] at this
          exact absurd this.symm hm'.1.2
      subst hxy
      have hw : w = u := by simpa [Memory.read] using h x
      subst hw
      have hrest : m = m' := ih hm.2 hm'.2 fun a => by
        by_cases ha : a = x
        · subst ha
          rw [Memory.read_of_wfFrom_gt hm.2 (by omega), Memory.read_of_wfFrom_gt hm'.2 (by omega)]
        · have := h a
          simpa [Memory.read, ha] using this
      rw [hrest]

theorem Memory.ext_of_wf {m m' : Memory} (hm : Memory.wf m = true) (hm' : Memory.wf m' = true)
    (h : ∀ a, m.read a = m'.read a) : m = m' := Memory.ext_of_wfFrom hm hm' h

end Sys2Proof.Machine
end

