-- ==== Sys2Proof/Laws/State.lean ====
section
/-! SUPPORT. What each update of a state leaves in each field, so that no later proof unfolds a record update. -/

namespace Sys2Proof.Machine

/-! `State.advance` changes `ip` only. -/

@[simp] theorem State.advance_params (s : State) : (s.advance).params = s.params := rfl
@[simp] theorem State.advance_ax (s : State) : (s.advance).ax = s.ax := rfl
@[simp] theorem State.advance_bx (s : State) : (s.advance).bx = s.bx := rfl
@[simp] theorem State.advance_cx (s : State) : (s.advance).cx = s.cx := rfl
@[simp] theorem State.advance_dx (s : State) : (s.advance).dx = s.dx := rfl
@[simp] theorem State.advance_ip (s : State) : (s.advance).ip = s.ip + 1 := rfl
@[simp] theorem State.advance_sp (s : State) : (s.advance).sp = s.sp := rfl
@[simp] theorem State.advance_fp (s : State) : (s.advance).fp = s.fp := rfl
@[simp] theorem State.advance_lp (s : State) : (s.advance).lp = s.lp := rfl
@[simp] theorem State.advance_mem (s : State) : (s.advance).mem = s.mem := rfl
@[simp] theorem State.advance_runState (s : State) : (s.advance).runState = s.runState := rfl
@[simp] theorem State.advance_faultCause (s : State) : (s.advance).faultCause = s.faultCause := rfl
@[simp] theorem State.advance_exitValue (s : State) : (s.advance).exitValue = s.exitValue := rfl
@[simp] theorem State.advance_output (s : State) : (s.advance).output = s.output := rfl
@[simp] theorem State.advance_lines (s : State) : (s.advance).lines = s.lines := rfl
@[simp] theorem State.advance_acks (s : State) : (s.advance).acks = s.acks := rfl
@[simp] theorem State.advance_commands (s : State) : (s.advance).commands = s.commands := rfl
@[simp] theorem State.advance_nanDraws (s : State) : (s.advance).nanDraws = s.nanDraws := rfl

/-! `State.advanceTwo` changes `ip` only. -/

@[simp] theorem State.advanceTwo_params (s : State) : (s.advanceTwo).params = s.params := rfl
@[simp] theorem State.advanceTwo_ax (s : State) : (s.advanceTwo).ax = s.ax := rfl
@[simp] theorem State.advanceTwo_bx (s : State) : (s.advanceTwo).bx = s.bx := rfl
@[simp] theorem State.advanceTwo_cx (s : State) : (s.advanceTwo).cx = s.cx := rfl
@[simp] theorem State.advanceTwo_dx (s : State) : (s.advanceTwo).dx = s.dx := rfl
@[simp] theorem State.advanceTwo_ip (s : State) : (s.advanceTwo).ip = s.ip + 2 := rfl
@[simp] theorem State.advanceTwo_sp (s : State) : (s.advanceTwo).sp = s.sp := rfl
@[simp] theorem State.advanceTwo_fp (s : State) : (s.advanceTwo).fp = s.fp := rfl
@[simp] theorem State.advanceTwo_lp (s : State) : (s.advanceTwo).lp = s.lp := rfl
@[simp] theorem State.advanceTwo_mem (s : State) : (s.advanceTwo).mem = s.mem := rfl
@[simp] theorem State.advanceTwo_runState (s : State) : (s.advanceTwo).runState = s.runState := rfl
@[simp] theorem State.advanceTwo_faultCause (s : State) : (s.advanceTwo).faultCause = s.faultCause := rfl
@[simp] theorem State.advanceTwo_exitValue (s : State) : (s.advanceTwo).exitValue = s.exitValue := rfl
@[simp] theorem State.advanceTwo_output (s : State) : (s.advanceTwo).output = s.output := rfl
@[simp] theorem State.advanceTwo_lines (s : State) : (s.advanceTwo).lines = s.lines := rfl
@[simp] theorem State.advanceTwo_acks (s : State) : (s.advanceTwo).acks = s.acks := rfl
@[simp] theorem State.advanceTwo_commands (s : State) : (s.advanceTwo).commands = s.commands := rfl
@[simp] theorem State.advanceTwo_nanDraws (s : State) : (s.advanceTwo).nanDraws = s.nanDraws := rfl

/-! `State.jumpTo` changes `ip` only. -/

@[simp] theorem State.jumpTo_params (s : State) (v : Word) : (s.jumpTo v).params = s.params := rfl
@[simp] theorem State.jumpTo_ax (s : State) (v : Word) : (s.jumpTo v).ax = s.ax := rfl
@[simp] theorem State.jumpTo_bx (s : State) (v : Word) : (s.jumpTo v).bx = s.bx := rfl
@[simp] theorem State.jumpTo_cx (s : State) (v : Word) : (s.jumpTo v).cx = s.cx := rfl
@[simp] theorem State.jumpTo_dx (s : State) (v : Word) : (s.jumpTo v).dx = s.dx := rfl
@[simp] theorem State.jumpTo_ip (s : State) (v : Word) : (s.jumpTo v).ip = v := rfl
@[simp] theorem State.jumpTo_sp (s : State) (v : Word) : (s.jumpTo v).sp = s.sp := rfl
@[simp] theorem State.jumpTo_fp (s : State) (v : Word) : (s.jumpTo v).fp = s.fp := rfl
@[simp] theorem State.jumpTo_lp (s : State) (v : Word) : (s.jumpTo v).lp = s.lp := rfl
@[simp] theorem State.jumpTo_mem (s : State) (v : Word) : (s.jumpTo v).mem = s.mem := rfl
@[simp] theorem State.jumpTo_runState (s : State) (v : Word) : (s.jumpTo v).runState = s.runState := rfl
@[simp] theorem State.jumpTo_faultCause (s : State) (v : Word) : (s.jumpTo v).faultCause = s.faultCause := rfl
@[simp] theorem State.jumpTo_exitValue (s : State) (v : Word) : (s.jumpTo v).exitValue = s.exitValue := rfl
@[simp] theorem State.jumpTo_output (s : State) (v : Word) : (s.jumpTo v).output = s.output := rfl
@[simp] theorem State.jumpTo_lines (s : State) (v : Word) : (s.jumpTo v).lines = s.lines := rfl
@[simp] theorem State.jumpTo_acks (s : State) (v : Word) : (s.jumpTo v).acks = s.acks := rfl
@[simp] theorem State.jumpTo_commands (s : State) (v : Word) : (s.jumpTo v).commands = s.commands := rfl
@[simp] theorem State.jumpTo_nanDraws (s : State) (v : Word) : (s.jumpTo v).nanDraws = s.nanDraws := rfl

/-! `State.raise` changes the status only (60_exceptions.md R305). -/

@[simp] theorem State.raise_params (s : State) (c : FaultCause) : (s.raise c).params = s.params := rfl
@[simp] theorem State.raise_ax (s : State) (c : FaultCause) : (s.raise c).ax = s.ax := rfl
@[simp] theorem State.raise_bx (s : State) (c : FaultCause) : (s.raise c).bx = s.bx := rfl
@[simp] theorem State.raise_cx (s : State) (c : FaultCause) : (s.raise c).cx = s.cx := rfl
@[simp] theorem State.raise_dx (s : State) (c : FaultCause) : (s.raise c).dx = s.dx := rfl
@[simp] theorem State.raise_ip (s : State) (c : FaultCause) : (s.raise c).ip = s.ip := rfl
@[simp] theorem State.raise_sp (s : State) (c : FaultCause) : (s.raise c).sp = s.sp := rfl
@[simp] theorem State.raise_fp (s : State) (c : FaultCause) : (s.raise c).fp = s.fp := rfl
@[simp] theorem State.raise_lp (s : State) (c : FaultCause) : (s.raise c).lp = s.lp := rfl
@[simp] theorem State.raise_mem (s : State) (c : FaultCause) : (s.raise c).mem = s.mem := rfl
@[simp] theorem State.raise_runState (s : State) (c : FaultCause) : (s.raise c).runState = .faulted := rfl
@[simp] theorem State.raise_faultCause (s : State) (c : FaultCause) : (s.raise c).faultCause = c := rfl
@[simp] theorem State.raise_exitValue (s : State) (c : FaultCause) : (s.raise c).exitValue = s.exitValue := rfl
@[simp] theorem State.raise_output (s : State) (c : FaultCause) : (s.raise c).output = s.output := rfl
@[simp] theorem State.raise_lines (s : State) (c : FaultCause) : (s.raise c).lines = s.lines := rfl
@[simp] theorem State.raise_acks (s : State) (c : FaultCause) : (s.raise c).acks = s.acks := rfl
@[simp] theorem State.raise_commands (s : State) (c : FaultCause) : (s.raise c).commands = s.commands := rfl
@[simp] theorem State.raise_nanDraws (s : State) (c : FaultCause) : (s.raise c).nanDraws = s.nanDraws := rfl

/-! `State.halt` changes the status only (10_state.md R32). -/

@[simp] theorem State.halt_params (s : State) : (s.halt).params = s.params := rfl
@[simp] theorem State.halt_ax (s : State) : (s.halt).ax = s.ax := rfl
@[simp] theorem State.halt_bx (s : State) : (s.halt).bx = s.bx := rfl
@[simp] theorem State.halt_cx (s : State) : (s.halt).cx = s.cx := rfl
@[simp] theorem State.halt_dx (s : State) : (s.halt).dx = s.dx := rfl
@[simp] theorem State.halt_ip (s : State) : (s.halt).ip = s.ip := rfl
@[simp] theorem State.halt_sp (s : State) : (s.halt).sp = s.sp := rfl
@[simp] theorem State.halt_fp (s : State) : (s.halt).fp = s.fp := rfl
@[simp] theorem State.halt_lp (s : State) : (s.halt).lp = s.lp := rfl
@[simp] theorem State.halt_mem (s : State) : (s.halt).mem = s.mem := rfl
@[simp] theorem State.halt_runState (s : State) : (s.halt).runState = .halted := rfl
@[simp] theorem State.halt_faultCause (s : State) : (s.halt).faultCause = s.faultCause := rfl
@[simp] theorem State.halt_exitValue (s : State) : (s.halt).exitValue = s.ax := rfl
@[simp] theorem State.halt_output (s : State) : (s.halt).output = s.output := rfl
@[simp] theorem State.halt_lines (s : State) : (s.halt).lines = s.lines := rfl
@[simp] theorem State.halt_acks (s : State) : (s.halt).acks = s.acks := rfl
@[simp] theorem State.halt_commands (s : State) : (s.halt).commands = s.commands := rfl
@[simp] theorem State.halt_nanDraws (s : State) : (s.halt).nanDraws = s.nanDraws := rfl

/-! `State.set` changes one general register only. -/

@[simp] theorem State.set_ax_ax (s : State) (v : Word) : (s.set .ax v).ax = v := rfl
@[simp] theorem State.set_ax_bx (s : State) (v : Word) : (s.set .ax v).bx = s.bx := rfl
@[simp] theorem State.set_ax_cx (s : State) (v : Word) : (s.set .ax v).cx = s.cx := rfl
@[simp] theorem State.set_ax_dx (s : State) (v : Word) : (s.set .ax v).dx = s.dx := rfl
@[simp] theorem State.set_bx_ax (s : State) (v : Word) : (s.set .bx v).ax = s.ax := rfl
@[simp] theorem State.set_bx_bx (s : State) (v : Word) : (s.set .bx v).bx = v := rfl
@[simp] theorem State.set_bx_cx (s : State) (v : Word) : (s.set .bx v).cx = s.cx := rfl
@[simp] theorem State.set_bx_dx (s : State) (v : Word) : (s.set .bx v).dx = s.dx := rfl
@[simp] theorem State.set_cx_ax (s : State) (v : Word) : (s.set .cx v).ax = s.ax := rfl
@[simp] theorem State.set_cx_bx (s : State) (v : Word) : (s.set .cx v).bx = s.bx := rfl
@[simp] theorem State.set_cx_cx (s : State) (v : Word) : (s.set .cx v).cx = v := rfl
@[simp] theorem State.set_cx_dx (s : State) (v : Word) : (s.set .cx v).dx = s.dx := rfl
@[simp] theorem State.set_dx_ax (s : State) (v : Word) : (s.set .dx v).ax = s.ax := rfl
@[simp] theorem State.set_dx_bx (s : State) (v : Word) : (s.set .dx v).bx = s.bx := rfl
@[simp] theorem State.set_dx_cx (s : State) (v : Word) : (s.set .dx v).cx = s.cx := rfl
@[simp] theorem State.set_dx_dx (s : State) (v : Word) : (s.set .dx v).dx = v := rfl
@[simp] theorem State.set_params (s : State) (r : Reg) (v : Word) : (s.set r v).params = s.params := by cases r <;> rfl
@[simp] theorem State.set_ip (s : State) (r : Reg) (v : Word) : (s.set r v).ip = s.ip := by cases r <;> rfl
@[simp] theorem State.set_sp (s : State) (r : Reg) (v : Word) : (s.set r v).sp = s.sp := by cases r <;> rfl
@[simp] theorem State.set_fp (s : State) (r : Reg) (v : Word) : (s.set r v).fp = s.fp := by cases r <;> rfl
@[simp] theorem State.set_lp (s : State) (r : Reg) (v : Word) : (s.set r v).lp = s.lp := by cases r <;> rfl
@[simp] theorem State.set_mem (s : State) (r : Reg) (v : Word) : (s.set r v).mem = s.mem := by cases r <;> rfl
@[simp] theorem State.set_runState (s : State) (r : Reg) (v : Word) : (s.set r v).runState = s.runState := by cases r <;> rfl
@[simp] theorem State.set_faultCause (s : State) (r : Reg) (v : Word) : (s.set r v).faultCause = s.faultCause := by cases r <;> rfl
@[simp] theorem State.set_exitValue (s : State) (r : Reg) (v : Word) : (s.set r v).exitValue = s.exitValue := by cases r <;> rfl
@[simp] theorem State.set_output (s : State) (r : Reg) (v : Word) : (s.set r v).output = s.output := by cases r <;> rfl
@[simp] theorem State.set_lines (s : State) (r : Reg) (v : Word) : (s.set r v).lines = s.lines := by cases r <;> rfl
@[simp] theorem State.set_acks (s : State) (r : Reg) (v : Word) : (s.set r v).acks = s.acks := by cases r <;> rfl
@[simp] theorem State.set_commands (s : State) (r : Reg) (v : Word) : (s.set r v).commands = s.commands := by cases r <;> rfl
@[simp] theorem State.set_nanDraws (s : State) (r : Reg) (v : Word) : (s.set r v).nanDraws = s.nanDraws := by cases r <;> rfl

@[simp] theorem State.get_set_same (s : State) (r : Reg) (v : Word) : (s.set r v).get r = v := by cases r <;> rfl

theorem State.get_set_other (s : State) {r q : Reg} (h : q ≠ r) (v : Word) : (s.set r v).get q = s.get q := by
  cases r <;> cases q <;> first | rfl | exact absurd rfl h

/-! `State.jumpIf` changes `ip` only. -/

@[simp] theorem State.jumpIf_ip (s : State) (c : Bool) : (s.jumpIf c).ip = if c then s.dx else s.ip + 1 := by
  cases c <;> rfl

theorem State.jumpIf_eq (s : State) (c : Bool) : s.jumpIf c = { s with ip := if c then s.dx else s.ip + 1 } := by
  cases c <;> rfl

/-! `State.writeReal` changes `ax` and the count of draws only. -/

theorem State.writeReal_eq (s : State) (r : Option Word) :
    s.writeReal r =
      { s with ax := r.getD (nanDraw s.nanDraws), nanDraws := s.nanDraws + if r.isNone then 1 else 0 } := by
  cases r <;> rfl

end Sys2Proof.Machine
end

