-- ==== Sys2Proof/Laws/Ops.lean ====
section
/-! SUPPORT. For each shared operation, one lemma that says all it can do; proofs cite these and do not unfold the
operations. -/

namespace Sys2Proof.Machine

/-- What `MemRead` can do (20_memory.md R53). -/
theorem State.memRead_cases (s : State) (a : Word) :
    (a.toNat < s.params.memWords.toNat ∧ s.memRead a = .ok (s.mem.read a.toNat)) ∨
    (s.params.memWords.toNat ≤ a.toNat ∧ s.memRead a = .error (.outOfBounds a)) := by
  unfold State.memRead
  split
  · next h => exact .inl ⟨h, rfl⟩
  · next h => exact .inr ⟨by omega, rfl⟩

/-- What `MemWrite` can do (20_memory.md R53). -/
theorem State.memWrite_cases (s : State) (a v : Word) :
    (a.toNat < s.params.memWords.toNat ∧ s.memWrite a v = .ok { s with mem := s.mem.write a.toNat v }) ∨
    (s.params.memWords.toNat ≤ a.toNat ∧ s.memWrite a v = .error (.outOfBounds a)) := by
  unfold State.memWrite
  split
  · next h => exact .inl ⟨h, rfl⟩
  · next h => exact .inr ⟨by omega, rfl⟩

/-- What a push can do (40_stack.md R100, 45_call_ret.md R200). -/
theorem State.pushWord_cases (s : State) (v : Word) :
    ((s.sp - 1).toNat < s.params.memWords.toNat ∧
      s.pushWord v = .ok { s with mem := s.mem.write (s.sp - 1).toNat v, sp := s.sp - 1 }) ∨
    (s.params.memWords.toNat ≤ (s.sp - 1).toNat ∧ s.pushWord v = .error (.outOfBounds (s.sp - 1))) := by
  unfold State.pushWord
  rcases s.memWrite_cases (s.sp - 1) v with ⟨h, e⟩ | ⟨h, e⟩
  · exact .inl ⟨h, by rw [e]⟩
  · exact .inr ⟨h, by rw [e]⟩

/-- What a pop can do (40_stack.md R101, 45_call_ret.md R201). -/
theorem State.popInto_cases (s : State) (r : Reg) :
    (s.sp.toNat < s.params.memWords.toNat ∧
      s.popInto r = .ok { s.set r (s.mem.read s.sp.toNat) with sp := s.sp + 1 }) ∨
    (s.params.memWords.toNat ≤ s.sp.toNat ∧ s.popInto r = .error (.outOfBounds s.sp)) := by
  unfold State.popInto
  rcases s.memRead_cases s.sp with ⟨h, e⟩ | ⟨h, e⟩
  · exact .inl ⟨h, by rw [e]⟩
  · exact .inr ⟨h, by rw [e]⟩

/-- At the decided width the cast check passes (60_exceptions.md R302). -/
@[simp] theorem State.castCheck_eq (t : State) : t.castCheck = .ok t := if_pos rfl

@[simp] theorem State.settle_ok (s t : State) : s.settle (.ok t) = .next t := rfl

@[simp] theorem State.settle_error (s : State) (c : FaultCause) : s.settle (.error c) = .next (s.raise c) := rfl

/-- An instruction that settles answers a next state: its result, or the fault taken in the state before it. -/
theorem State.settle_cases {s t : State} {r : Except FaultCause State} (h : s.settle r = .next t) :
    r = .ok t ∨ ∃ c, r = .error c ∧ t = s.raise c := by
  cases r with
  | ok u => exact .inl (by simpa [State.settle] using h)
  | error c => exact .inr ⟨c, rfl, by simpa [State.settle, eq_comm] using h⟩

/-- What DIV computes (41_integer.md R116). -/
theorem divide_cases (mode : DefectMode) (a d : Word) :
    (d = 0 ∧ divide mode a d = .error .divideByZero) ∨
    (d ≠ 0 ∧ mode = .corrected ∧ divide mode a d = .ok (a / d, a - a / d * d)) ∨
    (d ≠ 0 ∧ mode = .literal ∧ a % d = 0 ∧ divide mode a d = .error .divideByZero) ∨
    (d ≠ 0 ∧ mode = .literal ∧ a % d ≠ 0 ∧ divide mode a d = .ok (a / (a % d), a % d)) := by
  by_cases hd : d = 0
  · exact .inl ⟨hd, if_pos hd⟩
  · cases mode with
    | corrected => exact .inr (.inl ⟨hd, rfl, if_neg hd⟩)
    | literal =>
      by_cases hr : a % d = 0
      · exact .inr (.inr (.inl ⟨hd, rfl, hr, (if_neg hd).trans (if_pos hr)⟩))
      · exact .inr (.inr (.inr ⟨hd, rfl, hr, (if_neg hd).trans (if_neg hr)⟩))

/-- What a shift can do (43_bitwise.md R154, R155). -/
theorem State.shift_cases (s : State) (v : Word) :
    (64 ≤ s.bx.toNat ∧ s.shift v = .error (.shiftOverflow s.bx)) ∨
    (s.bx.toNat < 64 ∧ s.shift v = .ok (s.set .ax v).advance) := by
  by_cases h : 64 ≤ s.bx.toNat
  · exact .inl ⟨h, if_pos h⟩
  · exact .inr ⟨by omega, if_neg h⟩

/-- The character loop of syscall 0 (46_syscall.md R212): the characters it appends are the scalar values read from
`a` up; without a fault it appended all `n`, and with one it stopped at the first Word it may not write. -/
theorem writeChars_spec (limit : Nat) (m : Memory) (n a : Nat) :
    ∃ k, k ≤ n ∧
      (writeChars limit m n a).1 = (List.range k).map (fun j => OutEvent.char (m.read (a + j))) ∧
      (∀ j, j < k → a + j < limit ∧ isScalarValue (m.read (a + j)) = true) ∧
      ((k = n ∧ (writeChars limit m n a).2 = none) ∨
       (k < n ∧ limit ≤ a + k ∧ (writeChars limit m n a).2 = some (.outOfBounds (BitVec.ofNat 64 (a + k)))) ∨
       (k < n ∧ a + k < limit ∧ isScalarValue (m.read (a + k)) = false ∧
          (writeChars limit m n a).2 = some (.invalidCodePoint (m.read (a + k))))) := by
  induction n generalizing a with
  | zero => exact ⟨0, le_rfl, rfl, by omega, .inl ⟨rfl, rfl⟩⟩
  | succ n ih =>
    unfold writeChars
    by_cases hlim : limit ≤ a
    · rw [if_pos hlim]
      exact ⟨0, by omega, rfl, by omega, .inr (.inl ⟨by omega, hlim, rfl⟩)⟩
    · rw [if_neg hlim]
      by_cases hc : isScalarValue (m.read a) = true
      · rw [if_pos hc]
        obtain ⟨k, hk, hout, hgood, hend⟩ := ih (a + 1)
        refine ⟨k + 1, by omega, ?_, ?_, ?_⟩
        · simp only [hout, List.range_succ_eq_map, List.map_cons, List.map_map]
          refine congrArg₂ _ rfl (List.map_congr_left fun j _ => ?_)
          simp only [Function.comp_apply, Nat.succ_eq_add_one]
          rw [show a + 1 + j = a + (j + 1) by omega]
        · intro j hj
          cases j with
          | zero => exact ⟨by omega, hc⟩
          | succ j =>
            have := hgood j (by omega)
            rwa [show a + (j + 1) = a + 1 + j by omega]
        · rw [show a + (k + 1) = a + 1 + k by omega]
          rcases hend with ⟨h1, h2⟩ | ⟨h1, h2, h3⟩ | ⟨h1, h2, h3, h4⟩
          · exact .inl ⟨by omega, h2⟩
          · exact .inr (.inl ⟨by omega, h2, h3⟩)
          · exact .inr (.inr ⟨by omega, h2, h3, h4⟩)
      · rw [if_neg hc]
        exact ⟨0, by omega, rfl, by omega, .inr (.inr ⟨by omega, by omega, by simpa using hc, rfl⟩)⟩

/-- What syscall 0 can do (46_syscall.md R212): all characters and a flush, or the characters before the fault. -/
theorem sysWrite_cases (s : State) :
    (∃ chars, writeChars s.params.memWords.toNat s.mem s.cx.toNat s.dx.toNat = (chars, none) ∧
      sysWrite s = { s with
        dx := s.dx + s.cx, cx := 0, output := s.output ++ chars ++ [.flush], runState := .blockedOut }) ∨
    (∃ chars c, writeChars s.params.memWords.toNat s.mem s.cx.toNat s.dx.toNat = (chars, some c) ∧
      sysWrite s = { s with output := s.output ++ chars, faultCause := c, runState := .faulted }) := by
  unfold sysWrite
  rcases h : writeChars s.params.memWords.toNat s.mem s.cx.toNat s.dx.toNat with ⟨chars, _ | c⟩
  · exact .inl ⟨chars, rfl, rfl⟩
  · exact .inr ⟨chars, c, rfl, rfl⟩

/-- What the end of a read line can do (46_syscall.md R213, R216). -/
theorem State.completeReadLine_cases (s : State) :
    (s.lines = [] ∧ s.completeReadLine = s) ∨
    (∃ line later, s.lines = line :: later ∧ 0 < line.length ∧
      s.params.memWords.toNat ≤ s.dx.toNat + line.length - 1 ∧
      s.completeReadLine = { s with
        lines := later, runState := .faulted,
        faultCause := .outOfBounds (BitVec.ofNat 64 (max s.dx.toNat s.params.memWords.toNat)) }) ∨
    (∃ line later, s.lines = line :: later ∧
      (line = [] ∨ s.dx.toNat + line.length ≤ s.params.memWords.toNat) ∧
      s.completeReadLine = { s with
        lines := later, runState := .running, mem := s.mem.writeList s.dx.toNat line, ip := s.ip + 1 }) := by
  unfold State.completeReadLine
  rcases h : s.lines with _ | ⟨line, later⟩
  · exact .inl ⟨rfl, rfl⟩
  · by_cases hfit : 0 < line.length ∧ s.params.memWords.toNat ≤ s.dx.toNat + line.length - 1
    · refine .inr (.inl ⟨line, later, rfl, hfit.1, hfit.2, ?_⟩)
      simp only [if_pos hfit]
      rfl
    · refine .inr (.inr ⟨line, later, rfl, ?_, ?_⟩)
      · cases line with
        | nil => exact .inl rfl
        | cons c line =>
          right
          simp only [List.length_cons] at hfit ⊢
          omega
      · simp only [if_neg hfit]
        rfl

/-- What the end of a write can do (46_syscall.md R216). -/
theorem State.completeWrite_cases (s : State) :
    (s.acks = 0 ∧ s.completeWrite = s) ∨
    (∃ n, s.acks = n + 1 ∧ s.completeWrite = { s with acks := n, runState := .running, ip := s.ip + 1 }) := by
  unfold State.completeWrite
  rcases h : s.acks with _ | n
  · exact .inl ⟨rfl, rfl⟩
  · exact .inr ⟨n, rfl, rfl⟩

/-- What a running step can do (10_state.md R32). -/
theorem cycle_cases (s : State) :
    (s.params.memWords.toNat ≤ s.ip.toNat ∧ cycle s = .next s.halt) ∨
    (s.ip.toNat < s.params.memWords.toNat ∧ ∃ i, s.fetch = .ok i ∧ cycle s = exec i s) ∨
    (s.ip.toNat < s.params.memWords.toNat ∧ ∃ c, s.fetch = .error c ∧ cycle s = .next (s.raise c)) := by
  unfold cycle
  split
  · next h => exact .inl ⟨h, rfl⟩
  · next h =>
    rcases hf : s.fetch with c | i
    · exact .inr (.inr ⟨by omega, c, rfl, rfl⟩)
    · exact .inr (.inl ⟨by omega, i, rfl, rfl⟩)

end Sys2Proof.Machine
end

