-- ==== Sys2Proof/Laws/Exec.lean ====
section
/-! SUPPORT. What an instruction can do, said once for all of them: invariants and frames follow from `exec_cases`
without unfolding a meaning again. -/

namespace Sys2Proof.Machine

/-- The state after an instruction that writes general registers, `ip` and the count of draws only. -/
def RegistersOnly (s t : State) : Prop :=
  t = { s with ax := t.ax, bx := t.bx, cx := t.cx, dx := t.dx, ip := t.ip, nanDraws := t.nanDraws }

/-- Which cause an instruction other than SYSCALL can raise, and when (60_exceptions.md R300 to R308). -/
def RaisedBy (i : Instr) (s : State) (c : FaultCause) : Prop :=
  (c = .outOfBounds (s.sp - 1) ∧ (i = .push ∨ i = .call)) ∨
  (c = .outOfBounds s.sp ∧ (i = .pop ∨ i = .ret)) ∨
  (c = .divideByZero ∧ i = .div) ∨
  (c = .shiftOverflow s.bx ∧ (i = .shl ∨ i = .shr)) ∨
  (c = .reservedOpcode (opcodeWord s.params.opcodeMap .deref) ∧ i = .deref)

/-- How an instruction that writes registers only leaves `ip` (10_state.md R33). -/
def LeavesIp (i : Instr) (s t : State) : Prop :=
  (i = .jmp ∧ t.ip = s.dx) ∨
  (i ∈ [Instr.je, .jne, .jg, .jge, .jl, .jle, .ja, .jae, .jb, .jbe, .fjg, .fjge, .fjl, .fjle] ∧
    (t.ip = s.dx ∨ t.ip = s.ip + 1)) ∨
  (i.operandWords ≠ [] ∧ t.ip = s.ip + 2) ∨
  (i.operandWords = [] ∧ i ∉ [Instr.jmp, .je, .jne, .jg, .jge, .jl, .jle, .ja, .jae, .jb, .jbe, .fjg, .fjge, .fjl, .fjle] ∧
    t.ip = s.ip + 1)

/-- What an instruction can do (files 40 to 49 of spec/). -/
theorem exec_cases {i : Instr} {s t : State} (h : exec i s = .next t) :
    (i = .syscall ∧
      ((s.ax = 0 ∧ t = sysWrite s) ∨ (s.ax = 1 ∧ t = sysReadLine s) ∨ (s.ax = 2 ∧ t = sysTerminate s) ∨
        t = s.raise (.unknownSyscall s.ax))) ∨
    ((s.sp - 1).toNat < s.params.memWords.toNat ∧
      ((i = .push ∧ t = { s with mem := s.mem.write (s.sp - 1).toNat s.cx, sp := s.sp - 1, ip := s.ip + 1 }) ∨
       (i = .call ∧ t = { s with mem := s.mem.write (s.sp - 1).toNat (s.ip + 1), sp := s.sp - 1, ip := s.dx }))) ∨
    (s.sp.toNat < s.params.memWords.toNat ∧
      ((i = .pop ∧ t = { s with cx := s.mem.read s.sp.toNat, sp := s.sp + 1, ip := s.ip + 1 }) ∨
       (i = .ret ∧
        t = { s with dx := s.mem.read s.sp.toNat, sp := s.sp + 1, ip := s.mem.read s.sp.toNat }))) ∨
    (∃ c, RaisedBy i s c ∧ t = s.raise c) ∨
    (i ∉ [Instr.syscall, .push, .call, .pop, .ret] ∧ RegistersOnly s t ∧ LeavesIp i s t) := by
  have jump (c : Bool) : RegistersOnly s (s.jumpIf c) ∧ ((s.jumpIf c).ip = s.dx ∨ (s.jumpIf c).ip = s.ip + 1) := by
    cases c
    · exact ⟨rfl, .inr rfl⟩
    · exact ⟨rfl, .inl rfl⟩
  have float (r : Option Word) : RegistersOnly s (s.writeReal r).advance ∧ (s.writeReal r).advance.ip = s.ip + 1 := by
    cases r <;> exact ⟨rfl, rfl⟩
  have write (r : Reg) (v : Word) : RegistersOnly s (s.set r v).advance ∧ (s.set r v).advance.ip = s.ip + 1 := by
    cases r <;> exact ⟨rfl, rfl⟩
  cases i
  case push =>
    rcases s.pushWord_cases s.cx with ⟨hb, e⟩ | ⟨hb, e⟩ <;> simp only [exec, execPush, e] at h <;> cases h
    · exact .inr (.inl ⟨hb, .inl ⟨rfl, rfl⟩⟩)
    · exact .inr (.inr (.inr (.inl ⟨_, .inl ⟨rfl, .inl rfl⟩, rfl⟩)))
  case call =>
    rcases s.pushWord_cases (s.ip + 1) with ⟨hb, e⟩ | ⟨hb, e⟩ <;> simp only [exec, execCall, e] at h <;> cases h
    · exact .inr (.inl ⟨hb, .inr ⟨rfl, rfl⟩⟩)
    · exact .inr (.inr (.inr (.inl ⟨_, .inl ⟨rfl, .inr rfl⟩, rfl⟩)))
  case pop =>
    rcases s.popInto_cases .cx with ⟨hb, e⟩ | ⟨hb, e⟩ <;> simp only [exec, execPop, e] at h <;> cases h
    · exact .inr (.inr (.inl ⟨hb, .inl ⟨rfl, rfl⟩⟩))
    · exact .inr (.inr (.inr (.inl ⟨_, .inr (.inl ⟨rfl, .inl rfl⟩), rfl⟩)))
  case ret =>
    rcases s.popInto_cases .dx with ⟨hb, e⟩ | ⟨hb, e⟩ <;> simp only [exec, execRet, e] at h <;> cases h
    · exact .inr (.inr (.inl ⟨hb, .inr ⟨rfl, rfl⟩⟩))
    · exact .inr (.inr (.inr (.inl ⟨_, .inr (.inl ⟨rfl, .inr rfl⟩), rfl⟩)))
  case syscall =>
    refine .inl ⟨rfl, ?_⟩
    simp only [exec, execSyscall] at h
    split at h
    · next h0 => cases h; exact .inl ⟨h0, rfl⟩
    · split at h
      · next h1 => cases h; exact .inr (.inl ⟨h1, rfl⟩)
      · split at h
        · next h2 => cases h; exact .inr (.inr (.inl ⟨h2, rfl⟩))
        · cases h; exact .inr (.inr (.inr rfl))
  case div =>
    rcases divide_cases s.params.defectMode s.ax s.bx with ⟨-, e⟩ | ⟨-, -, e⟩ | ⟨-, -, -, e⟩ | ⟨-, -, -, e⟩ <;>
      simp only [exec, execDiv, e] at h <;> cases h
    · exact .inr (.inr (.inr (.inl ⟨_, .inr (.inr (.inl ⟨rfl, rfl⟩)), rfl⟩)))
    · exact .inr (.inr (.inr (.inr ⟨by decide, rfl, .inr (.inr (.inr ⟨rfl, by decide, rfl⟩))⟩)))
    · exact .inr (.inr (.inr (.inl ⟨_, .inr (.inr (.inl ⟨rfl, rfl⟩)), rfl⟩)))
    · exact .inr (.inr (.inr (.inr ⟨by decide, rfl, .inr (.inr (.inr ⟨rfl, by decide, rfl⟩))⟩)))
  case shl =>
    rcases s.shift_cases (s.ax <<< s.bx) with ⟨-, e⟩ | ⟨-, e⟩ <;> simp only [exec, execShl, e] at h <;> cases h
    · exact .inr (.inr (.inr (.inl ⟨_, .inr (.inr (.inr (.inl ⟨rfl, .inl rfl⟩))), rfl⟩)))
    · exact .inr (.inr (.inr (.inr ⟨by decide, rfl, .inr (.inr (.inr ⟨rfl, by decide, rfl⟩))⟩)))
  case shr =>
    rcases s.shift_cases (s.ax >>> s.bx) with ⟨-, e⟩ | ⟨-, e⟩ <;> simp only [exec, execShr, e] at h <;> cases h
    · exact .inr (.inr (.inr (.inl ⟨_, .inr (.inr (.inr (.inl ⟨rfl, .inr rfl⟩))), rfl⟩)))
    · exact .inr (.inr (.inr (.inr ⟨by decide, rfl, .inr (.inr (.inr ⟨rfl, by decide, rfl⟩))⟩)))
  case deref =>
    cases h
    exact .inr (.inr (.inr (.inl ⟨_, .inr (.inr (.inr (.inr ⟨rfl, rfl⟩))), rfl⟩)))
  case jmp =>
    cases h
    exact .inr (.inr (.inr (.inr ⟨by decide, rfl, .inl ⟨rfl, rfl⟩⟩)))
  case fadd | fsub | fmul | fdiv =>
    cases h
    exact .inr (.inr (.inr (.inr ⟨by decide, (float _).1, .inr (.inr (.inr ⟨rfl, by decide, (float _).2⟩))⟩)))
  case je | jne | jg | jge | jl | jle | ja | jae | jb | jbe | fjg | fjge | fjl | fjle =>
    cases h
    exact .inr (.inr (.inr (.inr ⟨by decide, (jump _).1, .inr (.inl ⟨by decide, (jump _).2⟩)⟩)))
  case moveOpToAx | moveOpToBx | moveOpToCx | moveOpToDx =>
    cases h
    exact .inr (.inr (.inr (.inr ⟨by simp, rfl, .inr (.inr (.inl ⟨by simp [Instr.operandWords], rfl⟩))⟩)))
  all_goals
    cases h
    exact .inr (.inr (.inr (.inr ⟨by decide, (write _ _).1, .inr (.inr (.inr ⟨rfl, by decide, (write _ _).2⟩))⟩)))

end Sys2Proof.Machine
end

