-- ==== Sys2Proof/Laws/PerInstr.lean ====
section
/-! SUPPORT. Facts about every instruction as syntax, one lemma for each constructor. -/

namespace Sys2Proof.Laws

/-- The catalog holds the instruction at its own position, in the format its operand Words have (30_encoding.md R71,
R76), so a decoder that finds the position gives the instruction back. -/
def Catalogued.Statement (i : Instr) : Prop :=
  i.index < 59 ∧
    ((i.operandWords = [] ∧ catalog i.index = some (.f1 i)) ∨
     ∃ build imm, i.operandWords = [imm] ∧ catalog i.index = some (.f2 build) ∧ build imm = i)

end Sys2Proof.Laws

theorem Sys2Proof.Laws.Catalogued.push : Sys2Proof.Laws.Catalogued.Statement .push := ⟨by decide, .inl ⟨rfl, rfl⟩⟩

theorem Sys2Proof.Laws.Catalogued.pop : Sys2Proof.Laws.Catalogued.Statement .pop := ⟨by decide, .inl ⟨rfl, rfl⟩⟩

theorem Sys2Proof.Laws.Catalogued.inc : Sys2Proof.Laws.Catalogued.Statement .inc := ⟨by decide, .inl ⟨rfl, rfl⟩⟩

theorem Sys2Proof.Laws.Catalogued.dec : Sys2Proof.Laws.Catalogued.Statement .dec := ⟨by decide, .inl ⟨rfl, rfl⟩⟩

theorem Sys2Proof.Laws.Catalogued.neg : Sys2Proof.Laws.Catalogued.Statement .neg := ⟨by decide, .inl ⟨rfl, rfl⟩⟩

theorem Sys2Proof.Laws.Catalogued.add : Sys2Proof.Laws.Catalogued.Statement .add := ⟨by decide, .inl ⟨rfl, rfl⟩⟩

theorem Sys2Proof.Laws.Catalogued.sub : Sys2Proof.Laws.Catalogued.Statement .sub := ⟨by decide, .inl ⟨rfl, rfl⟩⟩

theorem Sys2Proof.Laws.Catalogued.mul : Sys2Proof.Laws.Catalogued.Statement .mul := ⟨by decide, .inl ⟨rfl, rfl⟩⟩

theorem Sys2Proof.Laws.Catalogued.div : Sys2Proof.Laws.Catalogued.Statement .div := ⟨by decide, .inl ⟨rfl, rfl⟩⟩

theorem Sys2Proof.Laws.Catalogued.fneg : Sys2Proof.Laws.Catalogued.Statement .fneg := ⟨by decide, .inl ⟨rfl, rfl⟩⟩

theorem Sys2Proof.Laws.Catalogued.fadd : Sys2Proof.Laws.Catalogued.Statement .fadd := ⟨by decide, .inl ⟨rfl, rfl⟩⟩

theorem Sys2Proof.Laws.Catalogued.fsub : Sys2Proof.Laws.Catalogued.Statement .fsub := ⟨by decide, .inl ⟨rfl, rfl⟩⟩

theorem Sys2Proof.Laws.Catalogued.fmul : Sys2Proof.Laws.Catalogued.Statement .fmul := ⟨by decide, .inl ⟨rfl, rfl⟩⟩

theorem Sys2Proof.Laws.Catalogued.fdiv : Sys2Proof.Laws.Catalogued.Statement .fdiv := ⟨by decide, .inl ⟨rfl, rfl⟩⟩

theorem Sys2Proof.Laws.Catalogued.and : Sys2Proof.Laws.Catalogued.Statement .and := ⟨by decide, .inl ⟨rfl, rfl⟩⟩

theorem Sys2Proof.Laws.Catalogued.or : Sys2Proof.Laws.Catalogued.Statement .or := ⟨by decide, .inl ⟨rfl, rfl⟩⟩

theorem Sys2Proof.Laws.Catalogued.xor : Sys2Proof.Laws.Catalogued.Statement .xor := ⟨by decide, .inl ⟨rfl, rfl⟩⟩

theorem Sys2Proof.Laws.Catalogued.not : Sys2Proof.Laws.Catalogued.Statement .not := ⟨by decide, .inl ⟨rfl, rfl⟩⟩

theorem Sys2Proof.Laws.Catalogued.shl : Sys2Proof.Laws.Catalogued.Statement .shl := ⟨by decide, .inl ⟨rfl, rfl⟩⟩

theorem Sys2Proof.Laws.Catalogued.shr : Sys2Proof.Laws.Catalogued.Statement .shr := ⟨by decide, .inl ⟨rfl, rfl⟩⟩

theorem Sys2Proof.Laws.Catalogued.jmp : Sys2Proof.Laws.Catalogued.Statement .jmp := ⟨by decide, .inl ⟨rfl, rfl⟩⟩

theorem Sys2Proof.Laws.Catalogued.je : Sys2Proof.Laws.Catalogued.Statement .je := ⟨by decide, .inl ⟨rfl, rfl⟩⟩

theorem Sys2Proof.Laws.Catalogued.jne : Sys2Proof.Laws.Catalogued.Statement .jne := ⟨by decide, .inl ⟨rfl, rfl⟩⟩

theorem Sys2Proof.Laws.Catalogued.jg : Sys2Proof.Laws.Catalogued.Statement .jg := ⟨by decide, .inl ⟨rfl, rfl⟩⟩

theorem Sys2Proof.Laws.Catalogued.jge : Sys2Proof.Laws.Catalogued.Statement .jge := ⟨by decide, .inl ⟨rfl, rfl⟩⟩

theorem Sys2Proof.Laws.Catalogued.jl : Sys2Proof.Laws.Catalogued.Statement .jl := ⟨by decide, .inl ⟨rfl, rfl⟩⟩

theorem Sys2Proof.Laws.Catalogued.jle : Sys2Proof.Laws.Catalogued.Statement .jle := ⟨by decide, .inl ⟨rfl, rfl⟩⟩

theorem Sys2Proof.Laws.Catalogued.ja : Sys2Proof.Laws.Catalogued.Statement .ja := ⟨by decide, .inl ⟨rfl, rfl⟩⟩

theorem Sys2Proof.Laws.Catalogued.jae : Sys2Proof.Laws.Catalogued.Statement .jae := ⟨by decide, .inl ⟨rfl, rfl⟩⟩

theorem Sys2Proof.Laws.Catalogued.jb : Sys2Proof.Laws.Catalogued.Statement .jb := ⟨by decide, .inl ⟨rfl, rfl⟩⟩

theorem Sys2Proof.Laws.Catalogued.jbe : Sys2Proof.Laws.Catalogued.Statement .jbe := ⟨by decide, .inl ⟨rfl, rfl⟩⟩

theorem Sys2Proof.Laws.Catalogued.fjg : Sys2Proof.Laws.Catalogued.Statement .fjg := ⟨by decide, .inl ⟨rfl, rfl⟩⟩

theorem Sys2Proof.Laws.Catalogued.fjge : Sys2Proof.Laws.Catalogued.Statement .fjge := ⟨by decide, .inl ⟨rfl, rfl⟩⟩

theorem Sys2Proof.Laws.Catalogued.fjl : Sys2Proof.Laws.Catalogued.Statement .fjl := ⟨by decide, .inl ⟨rfl, rfl⟩⟩

theorem Sys2Proof.Laws.Catalogued.fjle : Sys2Proof.Laws.Catalogued.Statement .fjle := ⟨by decide, .inl ⟨rfl, rfl⟩⟩

theorem Sys2Proof.Laws.Catalogued.call : Sys2Proof.Laws.Catalogued.Statement .call := ⟨by decide, .inl ⟨rfl, rfl⟩⟩

theorem Sys2Proof.Laws.Catalogued.ret : Sys2Proof.Laws.Catalogued.Statement .ret := ⟨by decide, .inl ⟨rfl, rfl⟩⟩

theorem Sys2Proof.Laws.Catalogued.syscall : Sys2Proof.Laws.Catalogued.Statement .syscall := ⟨by decide, .inl ⟨rfl, rfl⟩⟩

theorem Sys2Proof.Laws.Catalogued.moveOpToAx (imm : Sys2Proof.Word) :
    Sys2Proof.Laws.Catalogued.Statement (.moveOpToAx imm) := ⟨by simp [Sys2Proof.Instr.index], .inr ⟨_, imm, rfl, rfl, rfl⟩⟩

theorem Sys2Proof.Laws.Catalogued.moveOpToBx (imm : Sys2Proof.Word) :
    Sys2Proof.Laws.Catalogued.Statement (.moveOpToBx imm) := ⟨by simp [Sys2Proof.Instr.index], .inr ⟨_, imm, rfl, rfl, rfl⟩⟩

theorem Sys2Proof.Laws.Catalogued.moveOpToCx (imm : Sys2Proof.Word) :
    Sys2Proof.Laws.Catalogued.Statement (.moveOpToCx imm) := ⟨by simp [Sys2Proof.Instr.index], .inr ⟨_, imm, rfl, rfl, rfl⟩⟩

theorem Sys2Proof.Laws.Catalogued.moveOpToDx (imm : Sys2Proof.Word) :
    Sys2Proof.Laws.Catalogued.Statement (.moveOpToDx imm) := ⟨by simp [Sys2Proof.Instr.index], .inr ⟨_, imm, rfl, rfl, rfl⟩⟩

theorem Sys2Proof.Laws.Catalogued.moveAxToBx : Sys2Proof.Laws.Catalogued.Statement .moveAxToBx := ⟨by decide, .inl ⟨rfl, rfl⟩⟩

theorem Sys2Proof.Laws.Catalogued.moveAxToCx : Sys2Proof.Laws.Catalogued.Statement .moveAxToCx := ⟨by decide, .inl ⟨rfl, rfl⟩⟩

theorem Sys2Proof.Laws.Catalogued.moveAxToDx : Sys2Proof.Laws.Catalogued.Statement .moveAxToDx := ⟨by decide, .inl ⟨rfl, rfl⟩⟩

theorem Sys2Proof.Laws.Catalogued.moveBxToAx : Sys2Proof.Laws.Catalogued.Statement .moveBxToAx := ⟨by decide, .inl ⟨rfl, rfl⟩⟩

theorem Sys2Proof.Laws.Catalogued.moveBxToCx : Sys2Proof.Laws.Catalogued.Statement .moveBxToCx := ⟨by decide, .inl ⟨rfl, rfl⟩⟩

theorem Sys2Proof.Laws.Catalogued.moveBxToDx : Sys2Proof.Laws.Catalogued.Statement .moveBxToDx := ⟨by decide, .inl ⟨rfl, rfl⟩⟩

theorem Sys2Proof.Laws.Catalogued.moveCxToAx : Sys2Proof.Laws.Catalogued.Statement .moveCxToAx := ⟨by decide, .inl ⟨rfl, rfl⟩⟩

theorem Sys2Proof.Laws.Catalogued.moveCxToBx : Sys2Proof.Laws.Catalogued.Statement .moveCxToBx := ⟨by decide, .inl ⟨rfl, rfl⟩⟩

theorem Sys2Proof.Laws.Catalogued.moveCxToDx : Sys2Proof.Laws.Catalogued.Statement .moveCxToDx := ⟨by decide, .inl ⟨rfl, rfl⟩⟩

theorem Sys2Proof.Laws.Catalogued.moveDxToAx : Sys2Proof.Laws.Catalogued.Statement .moveDxToAx := ⟨by decide, .inl ⟨rfl, rfl⟩⟩

theorem Sys2Proof.Laws.Catalogued.moveDxToBx : Sys2Proof.Laws.Catalogued.Statement .moveDxToBx := ⟨by decide, .inl ⟨rfl, rfl⟩⟩

theorem Sys2Proof.Laws.Catalogued.moveDxToCx : Sys2Proof.Laws.Catalogued.Statement .moveDxToCx := ⟨by decide, .inl ⟨rfl, rfl⟩⟩

theorem Sys2Proof.Laws.Catalogued.cwtor : Sys2Proof.Laws.Catalogued.Statement .cwtor := ⟨by decide, .inl ⟨rfl, rfl⟩⟩

theorem Sys2Proof.Laws.Catalogued.cswtor : Sys2Proof.Laws.Catalogued.Statement .cswtor := ⟨by decide, .inl ⟨rfl, rfl⟩⟩

theorem Sys2Proof.Laws.Catalogued.crtow : Sys2Proof.Laws.Catalogued.Statement .crtow := ⟨by decide, .inl ⟨rfl, rfl⟩⟩

theorem Sys2Proof.Laws.Catalogued.crtosw : Sys2Proof.Laws.Catalogued.Statement .crtosw := ⟨by decide, .inl ⟨rfl, rfl⟩⟩

theorem Sys2Proof.Laws.Catalogued.deref : Sys2Proof.Laws.Catalogued.Statement .deref := ⟨by decide, .inl ⟨rfl, rfl⟩⟩
end

