-- ==== Sys2Proof/Laws/Real.lean ====
section
/-! SUPPORT. Laws of the Real view and of rounding (42_float.md R130). A code is a Word without its sign bit; codes in
rising order stand for magnitudes in rising order. -/

namespace Sys2Proof.Machine

/-- The magnitude, in units of 2^-1074, that a code below `infBits` stands for. -/
def unitsOf (x : Nat) : Nat :=
  if x / 2 ^ 52 = 0 then x % 2 ^ 52 else (2 ^ 52 + x % 2 ^ 52) * 2 ^ (x / 2 ^ 52 - 1)

/-- How far `m` units are from `num / den` units, times `den`. -/
def offBy (num den m : Nat) : Nat := ((num : Int) - den * m).natAbs

theorem offBy_eq (num den m : Nat) : offBy num den m = ((num : Int) - ((den * m : Nat) : Int)).natAbs := by
  rw [offBy, Nat.cast_mul]

theorem unitsOf_code {s q : Nat} (hq : q ≤ 2 ^ 53) (h : s = 0 ∨ 2 ^ 52 ≤ q) :
    unitsOf (s * 2 ^ 52 + q) = q * 2 ^ s := by
  have hdiv : (s * 2 ^ 52 + q) / 2 ^ 52 = s + q / 2 ^ 52 := by omega
  have hmod : (s * 2 ^ 52 + q) % 2 ^ 52 = q % 2 ^ 52 := by omega
  unfold unitsOf
  rw [hdiv, hmod]
  rcases Nat.lt_or_ge q (2 ^ 52) with hlt | hge
  · obtain rfl : s = 0 := by omega
    rw [if_pos (by omega)]; simp; omega
  · rw [if_neg (by omega)]
    rcases Nat.lt_or_ge q (2 ^ 53) with h53 | h53
    · rw [show s + q / 2 ^ 52 - 1 = s by omega, show 2 ^ 52 + q % 2 ^ 52 = q by omega]
    · obtain rfl : q = 2 ^ 53 := by omega
      rw [show s + 2 ^ 53 / 2 ^ 52 - 1 = s + 1 by omega, pow_succ]; omega

/-- Every code has a spacing `2^s` and a multiple `q` of it. -/
theorem code_split (x : Nat) : ∃ s q, x = s * 2 ^ 52 + q ∧ q < 2 ^ 53 ∧ (s = 0 ∨ 2 ^ 52 ≤ q) :=
  ⟨x / 2 ^ 52 - 1, x - (x / 2 ^ 52 - 1) * 2 ^ 52, by omega, by omega, by omega⟩

theorem unitsOf_strictMono : StrictMono unitsOf := by
  refine strictMono_nat_of_lt_succ fun x => ?_
  obtain ⟨s, q, rfl, hq, h⟩ := code_split x
  rw [Nat.add_assoc, unitsOf_code (by omega) h, unitsOf_code (by omega) (by omega)]
  exact Nat.mul_lt_mul_of_pos_right (by omega) (by positivity)

/-- A Word is its sign and its code. -/
theorem packSign_msb (v : Word) : packSign v.msb (v.toNat % 2 ^ 63) = v := by
  apply BitVec.eq_of_toNat_eq
  have := v.isLt
  rw [packSign, BitVec.msb_eq_decide, BitVec.toNat_ofNat]
  simp only [decide_eq_true_eq]
  split <;> omega

theorem packSign_toNat (neg : Bool) {x : Nat} (hx : x < 2 ^ 63) :
    (packSign neg x).toNat = (if neg then 2 ^ 63 else 0) + x := by
  rw [packSign, BitVec.toNat_ofNat]; cases neg <;> simp <;> omega

theorem packSign_even (neg : Bool) {x : Nat} (hx : x < 2 ^ 63) :
    (packSign neg x).getLsbD 0 = decide (x % 2 = 1) := by
  rw [BitVec.getLsbD, packSign_toNat neg hx, Nat.testBit_zero]; cases neg <;> simp <;> omega

/-- The Real view by the fields of a sign and a code (00_scope.md R9). -/
theorem real_packSign (neg : Bool) {x : Nat} (hx : x < 2 ^ 63) :
    real (packSign neg x) =
      if x / 2 ^ 52 = 2047 then
        (if BitVec.ofNat 52 x = 0 then .inf neg else .nan neg (BitVec.ofNat 52 x))
      else .finite neg (unitsOf x) := by
  have ht := packSign_toNat neg hx
  have hm : (packSign neg x).msb = neg := by
    rw [BitVec.msb_eq_decide, ht]; cases neg <;> simp <;> omega
  have he : ((packSign neg x).extractLsb' 52 11).toNat = x / 2 ^ 52 := by
    rw [BitVec.extractLsb'_toNat, ht, Nat.shiftRight_eq_div_pow]; cases neg <;> simp <;> omega
  have hf : (packSign neg x).extractLsb' 0 52 = BitVec.ofNat 52 x := by
    apply BitVec.eq_of_toNat_eq
    rw [BitVec.extractLsb'_toNat, ht, Nat.shiftRight_zero, BitVec.toNat_ofNat]; cases neg <;> simp <;> omega
  simp only [real, hm, he, hf, unitsOf, BitVec.toNat_ofNat]
  split <;> split <;> rfl

theorem real_packSign_finite (neg : Bool) {x : Nat} (hx : x < infBits) :
    real (packSign neg x) = .finite neg (unitsOf x) := by
  have : infBits = 2047 * 2 ^ 52 := rfl
  rw [real_packSign neg (by omega), if_neg (by omega)]

theorem real_packSign_inf (neg : Bool) : real (packSign neg infBits) = .inf neg := by
  rw [real_packSign neg (by decide)]; rfl

/-- A finite datum is the datum of a code below `infBits`. -/
theorem real_finite {v : Word} {neg : Bool} {m : Nat} (h : real v = .finite neg m) :
    ∃ x, x < infBits ∧ v = packSign neg x ∧ m = unitsOf x := by
  have hx : v.toNat % 2 ^ 63 < 2 ^ 63 := Nat.mod_lt _ (by positivity)
  have hr := real_packSign v.msb hx
  rw [packSign_msb, h] at hr
  split at hr
  · split at hr <;> cases hr
  · next hne =>
    have hi : infBits = 2047 * 2 ^ 52 := rfl
    injection hr with h1 h2
    exact ⟨_, by omega, by rw [h1, packSign_msb], h2⟩

/-- The code before the clamp to infinity is a nearest one among all codes, and an even one where another is as near. -/
theorem nearest_code {num den s : Nat} (hd : 0 < den) (hs : s = (num / den).log2 - 52) :
    let d := den * 2 ^ s
    let q := num / d
    let r := num % d
    let x := s * 2 ^ 52 + if d < 2 * r ∨ (2 * r = d ∧ q % 2 = 1) then q + 1 else q
    ∀ y, offBy num den (unitsOf x) ≤ offBy num den (unitsOf y) ∧
      (unitsOf y ≠ unitsOf x → offBy num den (unitsOf x) = offBy num den (unitsOf y) → x % 2 = 0) := by
  intro d q r x y
  have hdpos : 0 < d := by positivity
  have hq : q = num / den / 2 ^ s := (Nat.div_div_eq_div_mul _ _ _).symm
  have hlt : num / den < 2 ^ ((num / den).log2 + 1) := Nat.lt_log2_self
  have hq1 : q < 2 ^ 53 := by
    rw [hq, Nat.div_lt_iff_lt_mul (by positivity), ← pow_add]
    exact hlt.trans_le (Nat.pow_le_pow_right (by norm_num) (by omega))
  have hq2 : s = 0 ∨ 2 ^ 52 ≤ q := by
    rcases Nat.eq_zero_or_pos s with h0 | h0
    · exact .inl h0
    · right
      have hne : num / den ≠ 0 := by rintro h; rw [h] at hs; simp at hs; omega
      rw [hq, Nat.le_div_iff_mul_le (by positivity), ← pow_add]
      exact (Nat.pow_le_pow_right (by norm_num) (by omega)).trans (Nat.log2_self_le hne)
  have u0 : unitsOf (s * 2 ^ 52 + q) = q * 2 ^ s := unitsOf_code (by omega) hq2
  have u1 : unitsOf (s * 2 ^ 52 + (q + 1)) = (q + 1) * 2 ^ s := unitsOf_code (by omega) (by omega)
  have hnum : num = d * q + r := (Nat.div_add_mod num d).symm
  have hr : r < d := Nat.mod_lt _ hdpos
  have e0 : den * unitsOf (s * 2 ^ 52 + q) = d * q := by rw [u0]; ring
  have e1 : den * unitsOf (s * 2 ^ 52 + (q + 1)) = d * q + d := by rw [u1]; ring
  have hy : (unitsOf y ≤ unitsOf (s * 2 ^ 52 + q) ∧ den * unitsOf y ≤ d * q) ∨
      (unitsOf (s * 2 ^ 52 + (q + 1)) ≤ unitsOf y ∧ d * q + d ≤ den * unitsOf y) := by
    rcases Nat.lt_or_ge y (s * 2 ^ 52 + (q + 1)) with h | h
    · have := unitsOf_strictMono.monotone (show y ≤ s * 2 ^ 52 + q by omega)
      exact .inl ⟨this, e0 ▸ Nat.mul_le_mul_left den this⟩
    · have := unitsOf_strictMono.monotone h
      exact .inr ⟨this, e1 ▸ Nat.mul_le_mul_left den this⟩
  have inj : ∀ z, den * unitsOf y = den * unitsOf z → unitsOf y = unitsOf z := fun z h =>
    Nat.eq_of_mul_eq_mul_left hd h
  have key0 : x = s * 2 ^ 52 + q → 2 * r ≤ d → (2 * r = d → q % 2 = 0) →
      offBy num den (unitsOf x) ≤ offBy num den (unitsOf y) ∧
      (unitsOf y ≠ unitsOf x → offBy num den (unitsOf x) = offBy num den (unitsOf y) → x % 2 = 0) := by
    intro hx h1 h2
    have ex : den * unitsOf x = d * q := hx ▸ e0
    have hinj := inj x
    rw [offBy_eq, offBy_eq, ex]
    generalize den * unitsOf y = Y at hy hinj ⊢
    generalize d * q = A at *
    refine ⟨by omega, fun hne heq => ?_⟩
    have : Y ≠ A := fun h => hne (hinj (by rw [h, ex]))
    have := h2 (by omega)
    omega
  have key1 : x = s * 2 ^ 52 + (q + 1) → d ≤ 2 * r → (2 * r = d → q % 2 = 1) →
      offBy num den (unitsOf x) ≤ offBy num den (unitsOf y) ∧
      (unitsOf y ≠ unitsOf x → offBy num den (unitsOf x) = offBy num den (unitsOf y) → x % 2 = 0) := by
    intro hx h1 h2
    have ex : den * unitsOf x = d * q + d := hx ▸ e1
    have hinj := inj x
    rw [offBy_eq, offBy_eq, ex]
    generalize den * unitsOf y = Y at hy hinj ⊢
    generalize d * q = A at *
    refine ⟨by omega, fun hne heq => ?_⟩
    have : Y ≠ A + d := fun h => hne (hinj (by rw [h, ex]))
    have := h2 (by omega)
    omega
  by_cases hc : d < 2 * r ∨ (2 * r = d ∧ q % 2 = 1)
  · exact key1 (by simp only [x, if_pos hc]) (by omega) (by omega)
  · exact key0 (by simp only [x, if_neg hc]) (by omega) (by omega)

/-- Rounding (42_float.md R130): infinity from the overflow threshold up, which is the largest finite magnitude and half
its spacing; below it the code of a nearest magnitude, and an even code where another is as near. -/
theorem roundMag_nearest (num : Nat) {den : Nat} (hd : 0 < den) :
    ((2 ^ 54 - 1) * 2 ^ 2044 * den ≤ num ∧ roundMag num den = infBits) ∨
    (num < (2 ^ 54 - 1) * 2 ^ 2044 * den ∧ roundMag num den < infBits ∧ ∀ y,
      offBy num den (unitsOf (roundMag num den)) ≤ offBy num den (unitsOf y) ∧
      (unitsOf y ≠ unitsOf (roundMag num den) →
        offBy num den (unitsOf (roundMag num den)) = offBy num den (unitsOf y) → roundMag num den % 2 = 0)) := by
  have hn := nearest_code (num := num) hd rfl
  have hmin : ∃ x, roundMag num den = min x infBits ∧ ∀ y,
      offBy num den (unitsOf x) ≤ offBy num den (unitsOf y) ∧
      (unitsOf y ≠ unitsOf x → offBy num den (unitsOf x) = offBy num den (unitsOf y) → x % 2 = 0) := ⟨_, rfl, hn⟩
  obtain ⟨x, hx, hnear⟩ := hmin
  have hi : infBits = 2046 * 2 ^ 52 + 2 ^ 52 := by rw [infBits]; omega
  have hl : infBits - 1 = 2045 * 2 ^ 52 + (2 ^ 53 - 1) := by rw [infBits]; omega
  obtain ⟨P, hP⟩ : ∃ P, P = 2 ^ 2044 := ⟨_, rfl⟩
  have ui : unitsOf infBits = 2 ^ 52 * (4 * P) := by
    rw [hi, unitsOf_code (by norm_num) (by right; norm_num), show 2046 = 2044 + 2 from rfl, pow_add, ← hP]; omega
  have ul : unitsOf (infBits - 1) = (2 ^ 53 - 1) * (2 * P) := by
    rw [hl, unitsOf_code (by norm_num) (by right; norm_num), show 2045 = 2044 + 1 from rfl, pow_add, ← hP]; omega
  have hPpos : 0 < den * P := Nat.mul_pos hd (hP ▸ by positivity)
  rw [← hP, show (2 ^ 54 - 1) * P * den = (2 ^ 54 - 1) * (den * P) by ring]
  have hni := hnear infBits
  have hnl := hnear (infBits - 1)
  simp only [offBy_eq] at hni hnl
  have ei : den * unitsOf infBits = 2 ^ 54 * (den * P) := by rw [ui]; ring
  have el : den * unitsOf (infBits - 1) = (2 ^ 54 - 2) * (den * P) := by
    rw [ul, show (2 ^ 54 - 2 : Nat) = (2 ^ 53 - 1) * 2 by norm_num]; ring
  rw [ei] at hni
  rw [el] at hnl
  rcases Nat.lt_or_ge x infBits with hlt | hge
  · right
    have hrm : roundMag num den = x := by rw [hx]; omega
    have hu : unitsOf x ≤ unitsOf (infBits - 1) := unitsOf_strictMono.monotone (by omega)
    have hm : den * unitsOf x ≤ (2 ^ 54 - 2) * (den * P) := el ▸ Nat.mul_le_mul_left den hu
    refine ⟨?_, by omega, by rw [hrm]; exact hnear⟩
    by_contra hc
    have hodd : ¬x % 2 = 0 := by
      intro hev
      have hne : x ≠ infBits - 1 := by intro h; rw [h] at hev; rw [infBits] at hev; omega
      have hs := unitsOf_strictMono (show x < infBits - 1 by omega)
      have : den * unitsOf x < (2 ^ 54 - 2) * (den * P) := el ▸ Nat.mul_lt_mul_of_pos_left hs hd
      generalize den * P = Q at *
      generalize den * unitsOf x = X at *
      omega
    have hne : unitsOf infBits ≠ unitsOf x := (unitsOf_strictMono (by omega)).ne'
    have := fun h => hodd (hni.2 hne h)
    generalize den * P = Q at *
    generalize den * unitsOf x = X at *
    omega
  · left
    refine ⟨?_, by rw [hx]; omega⟩
    by_contra hc
    have hu : unitsOf infBits ≤ unitsOf x := unitsOf_strictMono.monotone hge
    have hm : 2 ^ 54 * (den * P) ≤ den * unitsOf x := ei ▸ Nat.mul_le_mul_left den hu
    generalize den * P = Q at *
    generalize den * unitsOf x = X at *
    omega

end Sys2Proof.Machine
end

