-- ==== Sys2Proof/Laws/Step.lean ====
section
/-! SUPPORT. What fetching, a host transaction and one step can do, each said once. -/

namespace Sys2Proof.Machine

/-- The Word at `ip` is the opcode of the instruction fetched. -/
theorem State.fetch_opcode {s : State} {i : Instr} (h : s.fetch = .ok i) :
    s.mem.read s.ip.toNat = opcodeWord s.params.opcodeMap i := by
  unfold State.fetch at h
  split at h <;> try cases h
  next i rest hd =>
  unfold State.fetchWords at hd
  split at hd <;> simp only [decode, decodeOpcode] at hd <;>
  (rcases ho : opcodeIndex s.params.opcodeMap (s.mem.read s.ip.toNat) with _ | n
   · simp [ho] at hd
   · simp only [ho, Option.bind_some] at hd
     rcases hc : catalog n with _ | (j | b) <;> simp [hc] at hd
     all_goals
       obtain ⟨rfl, -⟩ := hd
       first
        | exact (opcodeWord_of ho (catalog_f1 hc).1).symm
        | exact (opcodeWord_of ho (catalog_f2 hc _).1).symm)

/-- An F2 instruction is fetched only where its immediate is in memory. -/
theorem State.fetch_immediate {s : State} {i : Instr} (h : s.fetch = .ok i) (ho : i.operandWords ≠ []) :
    s.ip.toNat + 1 < s.params.memWords.toNat := by
  by_contra hc
  unfold State.fetch State.fetchWords at h
  rw [if_neg hc] at h
  split at h <;> try cases h
  next i rest hd =>
  simp only [decode] at hd
  split at hd
  · cases hd
  · next hcat =>
    cases hd
    unfold decodeOpcode at hcat
    rcases hx : opcodeIndex s.params.opcodeMap (s.mem.read s.ip.toNat) with _ | n <;> simp [hx] at hcat
    exact ho (catalog_f1 hcat).2
  · simp at hd

/-- The faults a fetch raises. -/
theorem State.fetch_error {s : State} {c : FaultCause} (h : s.fetch = .error c) :
    (∃ a, c = .outOfBounds a) ∨ ∃ o, c = .unknownOpcode o := by
  unfold State.fetch at h
  split at h <;> cases h
  · exact .inl ⟨_, rfl⟩
  · exact .inr ⟨_, rfl⟩
  · exact .inl ⟨_, rfl⟩

/-- What the host's next transaction does (70_reset_and_hazards.md R330, R331; 60_exceptions.md R310). -/
theorem State.takeCommand_cases (s : State) :
    (s.commands = [] ∧ s.takeCommand = s) ∨
    ∃ c later, s.commands = c :: later ∧
      (s.takeCommand = { s with commands := later } ∨
       (s.runState = .reset ∧ ∃ ws e, c = .load ws e ∧ s.params.memWords.toNat < ws.length ∧
        s.takeCommand =
          { s with commands := later, faultCause := .imageTooLarge ws.length, runState := .faulted }) ∨
       (s.runState = .reset ∧ ∃ ws e, c = .load ws e ∧ ws.length ≤ s.params.memWords.toNat ∧
        s.takeCommand = { s with commands := later, mem := s.mem.writeList 0 ws, ip := e, runState := .loaded }) ∨
       (s.runState = .loaded ∧ c = .start ∧
        s.takeCommand =
          { s with
            commands := later, sp := s.params.memWords, fp := s.params.memWords,
            lp := s.params.memWords - 1, runState := .running })) := by
  unfold State.takeCommand
  rcases hc : s.commands with _ | ⟨c, later⟩
  · exact .inl ⟨rfl, rfl⟩
  · refine .inr ⟨c, later, rfl, ?_⟩
    cases c with
    | load ws e =>
      simp only [State.command, State.load]
      by_cases hr : s.runState = .reset
      · rw [if_neg (by simp [hr])]
        by_cases hl : s.params.memWords.toNat < ws.length
        · rw [if_pos hl]; exact .inr (.inl ⟨hr, ws, e, rfl, hl, rfl⟩)
        · rw [if_neg hl]; exact .inr (.inr (.inl ⟨hr, ws, e, rfl, by omega, rfl⟩))
      · rw [if_pos (by simpa using hr)]; exact .inl rfl
    | start =>
      simp only [State.command, State.start]
      by_cases hr : s.runState = .loaded
      · rw [if_neg (by simp [hr])]; exact .inr (.inr (.inr ⟨hr, trivial, rfl⟩))
      · rw [if_pos (by simpa using hr)]; exact .inl rfl

/-- In RUNNING a step is the instruction cycle (10_state.md R32). -/
theorem step_running {s : State} (h : s.runState = .running) : step s = cycle s := by rw [step, h]

/-- In BLOCKED_OUT a step waits for, or completes, the flush (46_syscall.md R216). -/
theorem step_blockedOut {s : State} (h : s.runState = .blockedOut) : step s = .next s.completeWrite := by rw [step, h]

/-- In BLOCKED_IN a step waits for, or completes, the read (46_syscall.md R213, R216). -/
theorem step_blockedIn {s : State} (h : s.runState = .blockedIn) : step s = .next s.completeReadLine := by rw [step, h]

/-- Every way to a next state. -/
theorem step_cases {s t : State} (h : step s = .next t) :
    ((s.runState = .reset ∨ s.runState = .loaded) ∧ t = s.takeCommand) ∨ s.runState = .running ∨
    (s.runState = .blockedOut ∧ t = s.completeWrite) ∨ (s.runState = .blockedIn ∧ t = s.completeReadLine) ∨
    ((s.runState = .halted ∨ s.runState = .faulted) ∧ t = s) := by
  unfold step at h
  split at h <;> simp_all

/-- Every way a running core goes on: it halts, runs the instruction fetched, or faults at the fetch. -/
theorem step_running_cases {s t : State} (hr : s.runState = .running) (h : step s = .next t) :
    (s.params.memWords.toNat ≤ s.ip.toNat ∧ t = s.halt) ∨
    (s.ip.toNat < s.params.memWords.toNat ∧ ∃ i, s.fetch = .ok i ∧ exec i s = .next t) ∨
    (s.ip.toNat < s.params.memWords.toNat ∧ ∃ c, s.fetch = .error c ∧ t = s.raise c) := by
  unfold step at h; rw [hr] at h; simp only at h
  rcases cycle_cases s with ⟨h1, e⟩ | ⟨h1, i, e1, e⟩ | ⟨h1, c, e1, e⟩ <;> rw [e] at h
  · cases h; exact .inl ⟨h1, rfl⟩
  · exact .inr (.inl ⟨h1, i, e1, h⟩)
  · cases h; exact .inr (.inr ⟨h1, c, e1, rfl⟩)

end Sys2Proof.Machine
end

