-- ==== Sys2Proof/Machine/Listing.lean ====
section
/-! DEFINITION. The assembler and listing syntax (30_encoding.md R84 to R86). The disassembler is a host tool
(00_scope.md R4); it is kept outside State and no step uses it. -/

namespace Sys2Proof.Machine

/-- The mnemonic of an instruction (30_encoding.md R84). -/
def mnemonic : Instr → String
  | .push => "PUSH"
  | .pop => "POP"
  | .inc => "INC"
  | .dec => "DEC"
  | .neg => "NEG"
  | .add => "ADD"
  | .sub => "SUB"
  | .mul => "MUL"
  | .div => "DIV"
  | .fneg => "FNEG"
  | .fadd => "FADD"
  | .fsub => "FSUB"
  | .fmul => "FMUL"
  | .fdiv => "FDIV"
  | .and => "AND"
  | .or => "OR"
  | .xor => "XOR"
  | .not => "NOT"
  | .shl => "SHL"
  | .shr => "SHR"
  | .jmp => "JMP"
  | .je => "JE"
  | .jne => "JNE"
  | .jg => "JG"
  | .jge => "JGE"
  | .jl => "JL"
  | .jle => "JLE"
  | .ja => "JA"
  | .jae => "JAE"
  | .jb => "JB"
  | .jbe => "JBE"
  | .fjg => "FJG"
  | .fjge => "FJGE"
  | .fjl => "FJL"
  | .fjle => "FJLE"
  | .call => "CALL"
  | .ret => "RET"
  | .syscall => "SYSCALL"
  | .moveOpToAx _ => "MOVE_OP_TO_AX"
  | .moveOpToBx _ => "MOVE_OP_TO_BX"
  | .moveOpToCx _ => "MOVE_OP_TO_CX"
  | .moveOpToDx _ => "MOVE_OP_TO_DX"
  | .moveAxToBx => "MOVE_AX_TO_BX"
  | .moveAxToCx => "MOVE_AX_TO_CX"
  | .moveAxToDx => "MOVE_AX_TO_DX"
  | .moveBxToAx => "MOVE_BX_TO_AX"
  | .moveBxToCx => "MOVE_BX_TO_CX"
  | .moveBxToDx => "MOVE_BX_TO_DX"
  | .moveCxToAx => "MOVE_CX_TO_AX"
  | .moveCxToBx => "MOVE_CX_TO_BX"
  | .moveCxToDx => "MOVE_CX_TO_DX"
  | .moveDxToAx => "MOVE_DX_TO_AX"
  | .moveDxToBx => "MOVE_DX_TO_BX"
  | .moveDxToCx => "MOVE_DX_TO_CX"
  | .cwtor => "CWTOR"
  | .cswtor => "CSWTOR"
  | .crtow => "CRTOW"
  | .crtosw => "CRTOSW"
  | .deref => "DEREF"

/-- One lower-case hexadecimal digit. -/
def hexDigit (n : Nat) : Char := ['0', '1', '2', '3', '4', '5', '6', '7', '8', '9', 'a', 'b', 'c', 'd', 'e', 'f'].getD n '?'

/-- The lowest `k` hexadecimal digits of a number, most significant first, zero-padded. -/
def hexPadded : (k n : Nat) → List Char
  | 0, _ => []
  | k + 1, n => hexPadded k (n / 16) ++ [hexDigit (n % 16)]

/-- A Word in lower-case hexadecimal without leading zeros. -/
def hexShort (w : Word) : List Char :=
  match (hexPadded 16 w.toNat).dropWhile (· == '0') with
  | [] => ['0']
  | digits => digits

/-- One line of a listing (30_encoding.md R85): the address in 16 digits, a colon and a space, the mnemonic, and for an
F2 instruction a space and the immediate. -/
def listingLine (address : Nat) (i : Instr) : String :=
  String.ofList (hexPadded 16 address) ++ ": " ++ mnemonic i ++
    String.join (i.operandWords.map fun imm => " 0x" ++ String.ofList (hexShort imm))

/-- The disassembly walk from `address` over the Words there up to the end of the image (30_encoding.md R86): DEREF is
rendered, an opcode outside the catalog aborts. An immediate load as the last Word is in no source; it aborts too:
DESIGN CHOICE (log 22). R86 does not say whether the lines rendered before an abort are kept; an abort gives its reason
alone and no line: DESIGN CHOICE (log 28), unsafe. `fuel` is at least the number of Words. -/
def disassemble (map : OpcodeMap) : (fuel address : Nat) → List Word → Except DecodeError (List String)
  | _, _, [] => .ok []
  | 0, _, _ :: _ => .ok []
  | fuel + 1, address, w :: ws =>
    match decode map (w :: ws) with
    | .error e => .error e
    | .ok (i, rest) =>
      match disassemble map fuel (address + 1 + i.operandWords.length) rest with
      | .error e => .error e
      | .ok lines => .ok (listingLine address i :: lines)

/-- The full-image listing, which starts at the entry point (30_encoding.md R86). -/
def listing (map : OpcodeMap) (words : List Word) (entry : Nat) : Except DecodeError (List String) :=
  disassemble map words.length entry (words.drop entry)

end Sys2Proof.Machine
end

