-- ==== Sys2Proof/Tests/Slice0.lean ====
section
/-! SUPPORT. Tests. Expected results are those of spec/95_test_vectors.md unless a comment says otherwise; words are
written out from the table of 30_encoding.md R76. -/

namespace Sys2Proof.Tests

open Sys2Proof.Machine Sys2Proof.Claims

/-! ## Helpers -/

/-- A running core with MEM_WORDS = 16, `ip` 0 and an empty stack, in LITERAL mode. -/
def core : State := { State.reset with
  params := { memWords := 16, defectMode := .literal, opcodeMap := defaultOpcodeMap }
  sp := 16
  fp := 16
  lp := 15
  runState := .running }

/-- The same core in CORRECTED mode. -/
def coreC : State := { core with params := { core.params with defectMode := .corrected } }

/-- `core` with `ax` and `bx`. -/
def ab (a b : Word) : State := { core with ax := a, bx := b }

/-- `coreC` with `ax`, `bx` and `dx = 9`. -/
def abC (a b : Word) : State := { coreC with ax := a, bx := b, dx := 9 }

/-- `core` with `ax`, `bx` and `dx = 9`. -/
def abL (a b : Word) : State := { core with ax := a, bx := b, dx := 9 }

/-- The next state. -/
def next : Out → Option State
  | .next t => some t
  | .fault _ => none
  | .refused _ => none

/-- `ax`, `bx` and `ip` of the next state, and whether it is still running. -/
def view (o : Out) : Option (Word × Word × Word × Bool) :=
  (next o).map fun t => (t.ax, t.bx, t.ip, decide (t.runState = .running))

/-- The next state is `s` with a fault taken. -/
def faults (o : Out) (s : State) (c : FaultCause) : Bool :=
  next o == some { s with runState := .faulted, faultCause := c }

/-- `ip` of the next state. -/
def ipOf (o : Out) : Option Word := (next o).map (·.ip)

/-! ## Well-formedness: an ill-formed parameter for each check -/

theorem test_params_default_ok : State.reset.params.ok = true := by decide
theorem test_memWords_zero_refused : Params.memWordsOk { core.params with memWords := 0 } = false := by decide
theorem test_memWords_largest : Params.memWordsOk { core.params with memWords := 0x1FFFFFFFFFFFFFFF } = true := by decide
theorem test_memWords_too_large_refused :
    Params.memWordsOk { core.params with memWords := 0x2000000000000000 } = false := by decide
theorem test_map_short_refused : OpcodeMap.ok defaultOpcodeMap.tail = false := by decide
theorem test_map_repeat_refused :
    (OpcodeMap.complete (1 :: defaultOpcodeMap.tail), OpcodeMap.injective (1 :: defaultOpcodeMap.tail)) = (true, false) := by
  decide
theorem test_params_bad_map_refused : Params.ok { core.params with opcodeMap := [] } = false := by decide
theorem test_quiet_nan_check :
    isQuietNaN 0x7FF8000000000000 = true ∧ isQuietNaN 0x7FF0000000000001 = false ∧ isQuietNaN 0x3FF8000000000000 = false := by
  decide
theorem test_line_check : lineOk [0x6F, 0x10FFFF] = true ∧ lineOk [0xDFFF] = false ∧ lineOk [0x110000] = false := by decide

/-! ## Decoding -/

theorem test_decode_stack :
    decodeTableWord 64 0x00 = some .push ∧ decodeTableWord 64 0x01 = some .pop := by decide
theorem test_decode_integer :
    decodeTableWord 64 0x02 = some .inc ∧ decodeTableWord 64 0x03 = some .dec ∧ decodeTableWord 64 0x04 = some .neg ∧
    decodeTableWord 64 0x05 = some .add ∧ decodeTableWord 64 0x06 = some .sub ∧ decodeTableWord 64 0x07 = some .mul ∧
    decodeTableWord 64 0x08 = some .div := by decide
theorem test_decode_float :
    decodeTableWord 64 0x09 = some .fneg ∧ decodeTableWord 64 0x0A = some .fadd ∧ decodeTableWord 64 0x0B = some .fsub ∧
    decodeTableWord 64 0x0C = some .fmul ∧ decodeTableWord 64 0x0D = some .fdiv := by decide
theorem test_decode_bitwise :
    decodeTableWord 64 0x0E = some .and ∧ decodeTableWord 64 0x0F = some .or ∧ decodeTableWord 64 0x10 = some .xor ∧
    decodeTableWord 64 0x11 = some .not ∧ decodeTableWord 64 0x12 = some .shl ∧ decodeTableWord 64 0x13 = some .shr := by
  decide
theorem test_decode_jumps :
    decodeTableWord 64 0x14 = some .jmp ∧ decodeTableWord 64 0x15 = some .je ∧ decodeTableWord 64 0x16 = some .jne ∧
    decodeTableWord 64 0x17 = some .jg ∧ decodeTableWord 64 0x18 = some .jge ∧ decodeTableWord 64 0x19 = some .jl ∧
    decodeTableWord 64 0x1A = some .jle ∧ decodeTableWord 64 0x1B = some .ja ∧ decodeTableWord 64 0x1C = some .jae ∧
    decodeTableWord 64 0x1D = some .jb ∧ decodeTableWord 64 0x1E = some .jbe ∧ decodeTableWord 64 0x1F = some .fjg ∧
    decodeTableWord 64 0x20 = some .fjge ∧ decodeTableWord 64 0x21 = some .fjl ∧ decodeTableWord 64 0x22 = some .fjle := by
  decide
theorem test_decode_call_ret_syscall :
    decodeTableWord 64 0x23 = some .call ∧ decodeTableWord 64 0x24 = some .ret ∧
    decodeTableWord 64 0x25 = some .syscall := by decide
theorem test_decode_immediate_loads :
    decodeTableWord 128 0x00000000000000070000000000000026 = some (.moveOpToAx 7) ∧
    decodeTableWord 128 0x80000000000000010000000000000027 = some (.moveOpToBx 0x8000000000000001) ∧
    decodeTableWord 64 0x28 = some (.moveOpToCx 0) ∧
    decodeTableWord 128 0xFFFFFFFFFFFFFFFF0000000000000029 = some (.moveOpToDx 0xFFFFFFFFFFFFFFFF) := by decide
theorem test_decode_register_moves :
    decodeTableWord 64 0x2A = some .moveAxToBx ∧ decodeTableWord 64 0x2B = some .moveAxToCx ∧
    decodeTableWord 64 0x2C = some .moveAxToDx ∧ decodeTableWord 64 0x2D = some .moveBxToAx ∧
    decodeTableWord 64 0x2E = some .moveBxToCx ∧ decodeTableWord 64 0x2F = some .moveBxToDx ∧
    decodeTableWord 64 0x30 = some .moveCxToAx ∧ decodeTableWord 64 0x31 = some .moveCxToBx ∧
    decodeTableWord 64 0x32 = some .moveCxToDx ∧ decodeTableWord 64 0x33 = some .moveDxToAx ∧
    decodeTableWord 64 0x34 = some .moveDxToBx ∧ decodeTableWord 64 0x35 = some .moveDxToCx := by decide
theorem test_decode_conversions :
    decodeTableWord 64 0x36 = some .cwtor ∧ decodeTableWord 64 0x37 = some .cswtor ∧
    decodeTableWord 64 0x38 = some .crtow ∧ decodeTableWord 64 0x39 = some .crtosw := by decide
theorem test_decode_deref : decodeTableWord 64 0x3A = some .deref := by decide
/-- 30_encoding.md R70, R78: all 64 bits of an opcode Word are compared. -/
theorem test_decode_unknown :
    decodeTableWord 64 0x3B = none ∧ decodeTableWord 64 0x100000000 = none ∧
    decodeTableWord 64 0x8000000000000005 = none := by decide
/-- 30_encoding.md R72: an F2 opcode takes the next Word, and there may be none. -/
theorem test_decode_missing_immediate : decode defaultOpcodeMap [0x26] = .error .missingImmediate := by decide
theorem test_decode_leaves_rest : decode defaultOpcodeMap [0x26, 7, 0x25] = .ok (.moveOpToAx 7, [0x25]) := by decide
theorem test_encode_words : encode defaultOpcodeMap (.moveOpToDx 0x2A) = [0x29, 0x2A] := by decide
theorem test_withFetchWord_runs_it :
    step (State.reset.withFetchWord 64 0x05) = exec .add (State.reset.withFetchWord 64 0x05) := by rfl
theorem test_withFetchWord_immediate :
    view (step (State.reset.withFetchWord 128 0x00000000000000070000000000000026)) = some (7, 0, 2, true) := by decide

/-! ## One step of each instruction -/

theorem test_push : next (exec .push { core with cx := 5 }) =
    some { core with cx := 5, mem := [(15, 5)], sp := 15, ip := 1 } := by decide
theorem test_push_no_room : faults (exec .push { core with sp := 0 }) { core with sp := 0 } (.outOfBounds 0xFFFFFFFFFFFFFFFF) := by
  decide
theorem test_pop : next (exec .pop { core with sp := 15, mem := [(15, 0x2A)] }) =
    some { core with mem := [(15, 0x2A)], cx := 0x2A, ip := 1 } := by decide
theorem test_pop_empty : faults (exec .pop core) core (.outOfBounds 16) := by decide

theorem test_inc_wraps : view (exec .inc (ab 0xFFFFFFFFFFFFFFFF 3)) = some (0, 3, 1, true) := by decide
theorem test_dec_wraps : view (exec .dec (ab 0 3)) = some (0xFFFFFFFFFFFFFFFF, 3, 1, true) := by decide
theorem test_neg : view (exec .neg (ab 1 3)) = some (0xFFFFFFFFFFFFFFFF, 3, 1, true) := by decide
theorem test_neg_least : view (exec .neg (ab 0x8000000000000000 3)) = some (0x8000000000000000, 3, 1, true) := by decide
theorem test_add : view (exec .add (ab 2 3)) = some (5, 3, 1, true) := by decide
theorem test_add_wraps : view (exec .add (ab 0xFFFFFFFFFFFFFFFF 1)) = some (0, 1, 1, true) := by decide
theorem test_sub : view (exec .sub (ab 10 3)) = some (7, 3, 1, true) := by decide
theorem test_sub_wraps : view (exec .sub (ab 0 1)) = some (0xFFFFFFFFFFFFFFFF, 1, 1, true) := by decide
theorem test_mul : view (exec .mul (ab 6 7)) = some (0x2A, 7, 1, true) := by decide
theorem test_mul_wraps : view (exec .mul (ab 0xFFFFFFFFFFFFFFFF 0xFFFFFFFFFFFFFFFF)) =
    some (1, 0xFFFFFFFFFFFFFFFF, 1, true) := by decide
theorem test_div : view (exec .div (abC 10 4)) = some (2, 2, 1, true) ∧ view (exec .div (ab 10 4)) = some (5, 2, 1, true) := by
  decide
theorem test_div_faults : faults (exec .div (ab 8 4)) (ab 8 4) .divideByZero ∧
    faults (exec .div (abC 5 0)) (abC 5 0) .divideByZero := by decide

theorem test_fneg : view (exec .fneg (ab 0x3FF8000000000000 3)) = some (0xBFF8000000000000, 3, 1, true) := by decide
theorem test_fneg_nan : view (exec .fneg (ab 0x7FF8000000000000 3)) = some (0xFFF8000000000000, 3, 1, true) := by decide
theorem test_fadd : view (exec .fadd (ab 0x3FB999999999999A 0x3FC999999999999A)) =
    some (0x3FD3333333333334, 0x3FC999999999999A, 1, true) := by decide +kernel
theorem test_fadd_nan : next (exec .fadd (ab 0x7FF0000000000000 0xFFF0000000000000)) =
    some { ab (nanDraw 0) 0xFFF0000000000000 with ip := 1, nanDraws := 1 } := by rfl
theorem test_fsub : view (exec .fsub (ab 0x4010000000000000 0x3FF8000000000000)) =
    some (0x4004000000000000, 0x3FF8000000000000, 1, true) := by decide +kernel
theorem test_fsub_zero : view (exec .fsub (ab 0x4000000000000000 0x4000000000000000)) =
    some (0, 0x4000000000000000, 1, true) := by decide +kernel
theorem test_fmul : view (exec .fmul (ab 0x4000000000000000 0x4008000000000000)) =
    some (0x4018000000000000, 0x4008000000000000, 1, true) := by decide +kernel
theorem test_fmul_tie : view (exec .fmul (ab 1 0x3FE0000000000000)) = some (0, 0x3FE0000000000000, 1, true) := by decide +kernel
theorem test_fdiv : view (exec .fdiv (ab 0x3FF0000000000000 0x4008000000000000)) =
    some (0x3FD5555555555555, 0x4008000000000000, 1, true) := by decide +kernel
theorem test_fdiv_zero : view (exec .fdiv (ab 0xBFF0000000000000 0)) = some (0xFFF0000000000000, 0, 1, true) := by decide +kernel

theorem test_and : view (exec .and (ab 0xF0F0 0xFF00)) = some (0xF000, 0xFF00, 1, true) := by decide
theorem test_or : view (exec .or (ab 0xF0F0 0x0F0F)) = some (0xFFFF, 0x0F0F, 1, true) := by decide
theorem test_xor : view (exec .xor (ab 0xFFFF 0x0F0F)) = some (0xF0F0, 0x0F0F, 1, true) := by decide
theorem test_not : view (exec .not (ab 0 3)) = some (0xFFFFFFFFFFFFFFFF, 3, 1, true) := by decide
theorem test_shl : view (exec .shl (ab 1 63)) = some (0x8000000000000000, 63, 1, true) := by decide
theorem test_shl_overflow : faults (exec .shl (ab 1 64)) (ab 1 64) (.shiftOverflow 64) := by decide
theorem test_shr : view (exec .shr (ab 0xFFFFFFFFFFFFFFFF 4)) = some (0x0FFFFFFFFFFFFFFF, 4, 1, true) := by decide
theorem test_shr_overflow : faults (exec .shr (ab 5 64)) (ab 5 64) (.shiftOverflow 64) := by decide

theorem test_jmp : next (exec .jmp (abL 1 2)) = some { abL 1 2 with ip := 9 } := by decide
theorem test_je : ipOf (exec .je (abL 4 4)) = some 9 ∧ ipOf (exec .je (abL 4 5)) = some 1 := by decide
theorem test_jne : ipOf (exec .jne (abL 4 5)) = some 9 ∧ ipOf (exec .jne (abL 4 4)) = some 1 := by decide
theorem test_jg : ipOf (exec .jg (abC 5 3)) = some 9 ∧ ipOf (exec .jg (abC 0xFFFFFFFFFFFFFFFF 1)) = some 1 := by decide
theorem test_jg_literal : ipOf (exec .jg (abL 5 3)) = some 1 := by decide
theorem test_jge : ipOf (exec .jge (abC 1 3)) = some 1 ∧ ipOf (exec .jge (abC 3 3)) = some 9 := by decide
theorem test_jge_literal : ipOf (exec .jge (abL 1 3)) = some 9 := by decide
theorem test_jl : ipOf (exec .jl (abC 0xFFFFFFFFFFFFFFFF 1)) = some 9 ∧ ipOf (exec .jl (abC 3 3)) = some 1 := by decide
theorem test_jl_literal : ipOf (exec .jl (abL 0xFFFFFFFFFFFFFFFF 1)) = some 1 := by decide
theorem test_jle : ipOf (exec .jle (abC 3 3)) = some 9 ∧ ipOf (exec .jle (abC 4 3)) = some 1 := by decide
theorem test_jle_literal : ipOf (exec .jle (abL 4 3)) = some 9 := by decide
theorem test_ja : ipOf (exec .ja (abL 0xFFFFFFFFFFFFFFFF 1)) = some 9 ∧ ipOf (exec .ja (abL 1 1)) = some 1 := by decide
theorem test_jae : ipOf (exec .jae (abL 1 1)) = some 9 ∧ ipOf (exec .jae (abL 0 1)) = some 1 := by decide
theorem test_jb : ipOf (exec .jb (abL 0xFFFFFFFFFFFFFFFF 1)) = some 1 ∧ ipOf (exec .jb (abL 0 1)) = some 9 := by decide
theorem test_jbe : ipOf (exec .jbe (abL 0 1)) = some 9 ∧ ipOf (exec .jbe (abL 2 1)) = some 1 := by decide
theorem test_fjg : ipOf (exec .fjg (abC 0x4008000000000000 0x4000000000000000)) = some 9 := by decide +kernel
theorem test_fjg_literal : ipOf (exec .fjg (abL 0x4008000000000000 0x4000000000000000)) = some 1 := by decide +kernel
theorem test_fjge : ipOf (exec .fjge (abC 0x4000000000000000 0x4000000000000000)) = some 9 := by decide +kernel
theorem test_fjge_literal : ipOf (exec .fjge (abL 0x7FF8000000000000 0)) = some 1 ∧
    ipOf (exec .fjge (abL 0x3FF0000000000000 0)) = some 9 := by decide +kernel
theorem test_fjl : ipOf (exec .fjl (abC 0x8000000000000000 0)) = some 1 ∧
    ipOf (exec .fjl (abC 0xBFF0000000000000 0)) = some 9 := by decide +kernel
theorem test_fjle : ipOf (exec .fjle (abC 0x8000000000000000 0)) = some 9 ∧
    ipOf (exec .fjle (abC 0 0x7FF8000000000000)) = some 1 := by decide +kernel

theorem test_call : next (exec .call { core with ip := 4, dx := 10 }) =
    some { core with ip := 10, dx := 10, sp := 15, mem := [(15, 5)] } := by decide
theorem test_call_no_room : faults (exec .call { core with ip := 4, sp := 0 }) { core with ip := 4, sp := 0 }
    (.outOfBounds 0xFFFFFFFFFFFFFFFF) := by decide
theorem test_ret : next (exec .ret { core with sp := 15, mem := [(15, 5)] }) =
    some { core with mem := [(15, 5)], dx := 5, ip := 5 } := by decide
theorem test_ret_empty : faults (exec .ret core) core (.outOfBounds 16) := by decide

/-- Memory with `H` and `i` at 8 and 9. -/
def hi : State := { core with dx := 8, cx := 2, mem := [(8, 0x48), (9, 0x69)] }

theorem test_syscall_results :
    next (exec .syscall hi) =
      some { hi with dx := 10, cx := 0, runState := .blockedOut, output := [.char 0x48, .char 0x69, .flush] } ∧
    next (step { core with runState := .blockedOut, acks := 1 }) = some { core with ip := 1 } ∧
    next (step { core with ax := 1, dx := 8, runState := .blockedIn, lines := [[0x6F, 0x6B]] }) =
      some { core with ax := 1, dx := 8, mem := [(8, 0x6F), (9, 0x6B)], ip := 1 } ∧
    next (step { core with ax := 1, dx := 15, runState := .blockedIn, lines := [[]] }) =
      some { core with ax := 1, dx := 15, ip := 1 } ∧
    view (exec .syscall { ab 2 7 with dx := 0x2A }) = some (0x2A, 7, 16, true) := by decide
theorem test_syscall_faults :
    faults (exec .syscall { core with cx := 2, dx := 15, mem := [(15, 0x41)] })
      { core with cx := 2, dx := 15, mem := [(15, 0x41)], output := [.char 0x41] } (.outOfBounds 16) ∧
    faults (exec .syscall { core with cx := 1, dx := 8, mem := [(8, 0xD800)] })
      { core with cx := 1, dx := 8, mem := [(8, 0xD800)] } (.invalidCodePoint 0xD800) ∧
    faults (step { core with ax := 1, dx := 15, runState := .blockedIn, lines := [[0x6F, 0x6B]] })
      { core with ax := 1, dx := 15 } (.outOfBounds 16) ∧
    faults (exec .syscall (ab 3 0)) (ab 3 0) (.unknownSyscall 3) := by decide

/-- `ax`, `bx`, `cx`, `dx` = 1, 2, 3, 4. -/
def r1234 : State := { core with ax := 1, bx := 2, cx := 3, dx := 4 }

/-- The general registers and `ip` of the next state. -/
def regs (o : Out) : Option (Word × Word × Word × Word × Word) :=
  (next o).map fun t => (t.ax, t.bx, t.cx, t.dx, t.ip)

theorem test_moveOpToAx : regs (exec (.moveOpToAx 7) r1234) = some (7, 2, 3, 4, 2) := by decide
theorem test_moveOpToBx : regs (exec (.moveOpToBx 7) r1234) = some (1, 7, 3, 4, 2) := by decide
theorem test_moveOpToBx_at_end : faults (step { core with ip := 15, mem := [(15, 0x27)] })
    { core with ip := 15, mem := [(15, 0x27)] } (.outOfBounds 16) := by decide
theorem test_moveOpToCx : regs (exec (.moveOpToCx 7) r1234) = some (1, 2, 7, 4, 2) := by decide
theorem test_moveOpToDx : regs (exec (.moveOpToDx 0xFFFFFFFFFFFFFFFF) r1234) = some (1, 2, 3, 0xFFFFFFFFFFFFFFFF, 2) := by
  decide
theorem test_moveAxToBx : regs (exec .moveAxToBx r1234) = some (1, 1, 3, 4, 1) := by decide
theorem test_moveAxToCx : regs (exec .moveAxToCx r1234) = some (1, 2, 1, 4, 1) := by decide
theorem test_moveAxToDx : regs (exec .moveAxToDx r1234) = some (1, 2, 3, 1, 1) := by decide
theorem test_moveBxToAx : regs (exec .moveBxToAx r1234) = some (2, 2, 3, 4, 1) := by decide
theorem test_moveBxToCx : regs (exec .moveBxToCx r1234) = some (1, 2, 2, 4, 1) := by decide
theorem test_moveBxToDx : regs (exec .moveBxToDx r1234) = some (1, 2, 3, 2, 1) := by decide
theorem test_moveCxToAx : regs (exec .moveCxToAx r1234) = some (3, 2, 3, 4, 1) := by decide
theorem test_moveCxToBx : regs (exec .moveCxToBx r1234) = some (1, 3, 3, 4, 1) := by decide
theorem test_moveCxToDx : regs (exec .moveCxToDx r1234) = some (1, 2, 3, 3, 1) := by decide
theorem test_moveDxToAx : regs (exec .moveDxToAx r1234) = some (4, 2, 3, 4, 1) := by decide
theorem test_moveDxToBx : regs (exec .moveDxToBx r1234) = some (1, 4, 3, 4, 1) := by decide
theorem test_moveDxToCx : regs (exec .moveDxToCx r1234) = some (1, 2, 4, 4, 1) := by decide

theorem test_cwtor : view (exec .cwtor (ab 3 7)) = some (0x4008000000000000, 7, 1, true) := by decide +kernel
theorem test_cwtor_tie : view (exec .cwtor (ab 0x20000000000001 7)) = some (0x4340000000000000, 7, 1, true) := by
  decide +kernel
theorem test_cswtor : view (exec .cswtor (ab 0xFFFFFFFFFFFFFFFF 7)) = some (0xBFF0000000000000, 7, 1, true) := by
  decide +kernel
theorem test_cswtor_least : view (exec .cswtor (ab 0x8000000000000000 7)) = some (0xC3E0000000000000, 7, 1, true) := by
  decide +kernel
theorem test_crtow : view (exec .crtow (ab 0x400C000000000000 7)) = some (3, 7, 1, true) := by decide +kernel
theorem test_crtow_saturates : view (exec .crtow (ab 0x7FF0000000000000 7)) = some (0xFFFFFFFFFFFFFFFF, 7, 1, true) ∧
    view (exec .crtow (ab 0xBFF0000000000000 7)) = some (0, 7, 1, true) := by decide +kernel
theorem test_crtosw : view (exec .crtosw (ab 0xC00D99999999999A 7)) = some (0xFFFFFFFFFFFFFFFD, 7, 1, true) := by
  decide +kernel
theorem test_crtosw_saturates : view (exec .crtosw (ab 0x43E0000000000000 7)) = some (0x7FFFFFFFFFFFFFFF, 7, 1, true) := by
  decide +kernel
theorem test_deref : faults (exec .deref (ab 5 0)) (ab 5 0) (.reservedOpcode 58) := by decide

/-! ## The cycle, load and start -/

theorem test_unknown_word : faults (step { core with mem := [(0, 59)] }) { core with mem := [(0, 59)] } (.unknownOpcode 59) := by
  decide
theorem test_terminal_check : next (step { ab 7 0 with ip := 16 }) =
    some { ab 7 0 with ip := 16, runState := .halted, exitValue := 7 } := by decide
theorem test_image_too_large : ((({ core with runState := .reset }.load (List.replicate 17 0) 0).runState,
    ({ core with runState := .reset }.load (List.replicate 17 0) 0).faultCause)) = (RunState.faulted, .imageTooLarge 17) := by
  decide
theorem test_image_of_memory_size :
    ({ core with runState := .reset }.load (List.replicate 16 2) 3).runState = .loaded := by decide
theorem test_second_load_ignored :
    ({ core with runState := .loaded, mem := [(0, 2)] }.load [5] 3) = { core with runState := .loaded, mem := [(0, 2)] } := by
  decide
theorem test_start : { core with runState := .loaded, sp := 3, fp := 4, lp := 5, ip := 7 }.start = { core with ip := 7 } := by
  decide

/-! ## Host tools -/

theorem test_listing : (listing defaultOpcodeMap [0x26, 7, 0x25] 0).toOption =
    some ["0000000000000000: MOVE_OP_TO_AX 0x7", "0000000000000002: SYSCALL"] := by decide +kernel
theorem test_image_file : imageBytes 0 [0x26, 7] =
    List.replicate 8 0 ++ (0x26 :: List.replicate 7 0) ++ (0x07 :: List.replicate 7 0) := by decide
theorem test_image_file_cut : readImage (List.replicate 9 0) = none ∧ readImage [] = none := by decide

/-! ## Witnesses: states that meet the hypotheses of the obligations, clause by clause, at the ends of their ranges -/

/-- `core` at `ip` with one Word there. -/
def at_ (ip : Word) (w : Word) : State := { core with ip := ip, mem := Memory.write [] ip.toNat w }

theorem witness_DecodeInvertsEncode :
    OpcodeMap.ok defaultOpcodeMap = true ∧ OpcodeMap.ok defaultOpcodeMap.reverse = true := by decide
theorem witness_DecodedWordsAreTheEncoding : OpcodeMap.ok defaultOpcodeMap = true ∧
    decode defaultOpcodeMap [0x29, 7, 5] = .ok (.moveOpToDx 7, [5]) := by decide
theorem witness_UnknownOpcodeIffNotInMap : OpcodeMap.complete defaultOpcodeMap = true ∧
    (0x3A : Word) ∈ defaultOpcodeMap ∧ (0x3B : Word) ∉ defaultOpcodeMap := by decide
theorem witness_StepRunsDecodedInstruction_last_word : (at_ 15 5).runState = .running ∧
    (at_ 15 5).ip.toNat < (at_ 15 5).params.memWords.toNat ∧
    decode (at_ 15 5).params.opcodeMap ((at_ 15 5).mem.read (at_ 15 5).ip.toNat ::
      if (at_ 15 5).ip.toNat + 1 < (at_ 15 5).params.memWords.toNat then
        [(at_ 15 5).mem.read ((at_ 15 5).ip.toNat + 1)] else []) = .ok (.add, []) := by decide
theorem witness_StepRunsDecodedInstruction_immediate : (at_ 14 0x26).runState = .running ∧
    (at_ 14 0x26).ip.toNat < (at_ 14 0x26).params.memWords.toNat ∧
    decode (at_ 14 0x26).params.opcodeMap ((at_ 14 0x26).mem.read (at_ 14 0x26).ip.toNat ::
      if (at_ 14 0x26).ip.toNat + 1 < (at_ 14 0x26).params.memWords.toNat then
        [(at_ 14 0x26).mem.read ((at_ 14 0x26).ip.toNat + 1)] else []) = .ok (.moveOpToAx 0, []) := by decide
theorem witness_StoredInstructionRuns : (at_ 14 0x26).runState = .running ∧
    OpcodeMap.ok (at_ 14 0x26).params.opcodeMap = true ∧
    ∀ k w, (encode (at_ 14 0x26).params.opcodeMap (.moveOpToAx 0))[k]? = some w →
      (at_ 14 0x26).ip.toNat + k < (at_ 14 0x26).params.memWords.toNat ∧
      (at_ 14 0x26).mem.read ((at_ 14 0x26).ip.toNat + k) = w := by
  refine ⟨by decide, by decide, fun k w h => ?_⟩
  rcases k with _ | _ | k
  · cases h; decide
  · cases h; decide
  · cases h
theorem witness_RunningCycle_terminal : (at_ 16 5).runState = .running ∧
    OpcodeMap.ok (at_ 16 5).params.opcodeMap = true ∧ (at_ 16 5).params.memWords.toNat ≤ (at_ 16 5).ip.toNat := by decide
theorem witness_RunningCycle_unknown : (at_ 15 59).ip.toNat < (at_ 15 59).params.memWords.toNat ∧
    (at_ 15 59).mem.read (at_ 15 59).ip.toNat ∉ (at_ 15 59).params.opcodeMap := by decide
theorem witness_RunningCycle_reserved : (at_ 15 58).ip.toNat < (at_ 15 58).params.memWords.toNat ∧
    (at_ 15 58).mem.read (at_ 15 58).ip.toNat = opcodeWord (at_ 15 58).params.opcodeMap .deref := by decide
theorem witness_RunningCycle_f1 : (at_ 15 5).ip.toNat < (at_ 15 5).params.memWords.toNat ∧
    Instr.add.operandWords = [] ∧ (at_ 15 5).mem.read (at_ 15 5).ip.toNat = opcodeWord (at_ 15 5).params.opcodeMap .add := by
  decide
theorem witness_RunningCycle_f2 :
    ((at_ 14 0x29).mem.read (at_ 14 0x29).ip.toNat = opcodeWord (at_ 14 0x29).params.opcodeMap (.moveOpToDx 0) ∧
      (at_ 14 0x29).ip.toNat + 1 < (at_ 14 0x29).params.memWords.toNat) ∧
    ((at_ 15 0x29).mem.read (at_ 15 0x29).ip.toNat = opcodeWord (at_ 15 0x29).params.opcodeMap (.moveOpToDx 0) ∧
      ¬(at_ 15 0x29).ip.toNat + 1 < (at_ 15 0x29).params.memWords.toNat) := by decide
theorem witness_UnknownOpcodeFaultsAtFetch : (at_ 15 59).runState = .running ∧
    (at_ 15 59).mem.read (at_ 15 59).ip.toNat ∉ (at_ 15 59).params.opcodeMap ∧
    (at_ 15 59).params.opcodeMap = defaultOpcodeMap ∧ (at_ 15 59).ip.toNat < (at_ 15 59).params.memWords.toNat ∧
    59 ≤ ((at_ 15 59).mem.read (at_ 15 59).ip.toNat).toNat := by decide
theorem witness_FinalStatesStay :
    { core with runState := .halted }.runState = .halted ∧ { core with runState := .faulted }.runState = .faulted := by decide
/-- A PUSH at 14 that writes INC at 15. -/
def pushInc : State := { core with ip := 14, cx := 2 }
theorem witness_PushedWordIsFetchedNext : pushInc.runState = .running ∧ OpcodeMap.ok pushInc.params.opcodeMap = true ∧
    pushInc.ip.toNat + 1 < pushInc.params.memWords.toNat ∧ pushInc.sp - 1 = pushInc.ip + 1 ∧
    pushInc.mem.read pushInc.ip.toNat = opcodeWord pushInc.params.opcodeMap .push ∧ Instr.inc.operandWords = [] ∧
    pushInc.cx = opcodeWord pushInc.params.opcodeMap .inc := by decide

theorem witness_push_and_call_room :
    ((1 : Word) - 1).toNat < core.params.memWords.toNat ∧ (core.sp - 1).toNat < core.params.memWords.toNat ∧
    ¬((0 : Word) - 1).toNat < core.params.memWords.toNat := by decide
theorem witness_pop_and_ret_word :
    (15 : Word).toNat < core.params.memWords.toNat ∧ ¬core.sp.toNat < core.params.memWords.toNat := by decide
theorem witness_PopUndoesPushAndRetUndoesCall :
    ({ core with sp := 1 }.sp - 1).toNat < { core with sp := 1 }.params.memWords.toNat := by decide
theorem witness_StackPointerStaysInRange_start :
    { core with runState := .loaded, sp := 3, commands := [.start] }.commands.head? = some .start ∧
    next (step { core with runState := .loaded, sp := 3, commands := [.start] }) = some core := by decide
theorem witness_StackPointerStaysInRange_top : { at_ 0 1 with sp := 15 }.sp.toNat ≤ core.params.memWords.toNat ∧
    (next (step { at_ 0 1 with sp := 15 })).map (·.sp) = some 16 := by decide
theorem witness_DivFollowsDefectMode :
    (ab 5 0).bx = 0 ∧ (abC 0xFFFFFFFFFFFFFFFF 1).bx ≠ 0 ∧ (abC 0xFFFFFFFFFFFFFFFF 1).params.defectMode = .corrected ∧
    (ab 8 4).params.defectMode = .literal ∧ (ab 8 4).ax.toNat % (ab 8 4).bx.toNat = 0 ∧
    (ab 9 4).ax.toNat % (ab 9 4).bx.toNat ≠ 0 := by decide

theorem witness_FloatArithmeticCompletes_nan :
    addReal (real 0x7FF0000000000000) (real 0xFFF0000000000000) = none ∧
    mulReal (real 0x7FF0000000000000) (real 0) = none ∧ divReal (real 0) (real 0x8000000000000000) = none ∧
    addReal (real 0x7FEFFFFFFFFFFFFF) (real 0x7FEFFFFFFFFFFFFF) = some 0x7FF0000000000000 := by decide +kernel
/-- The least subnormal and its negative; the largest finite datum. -/
theorem witness_FloatSumsRoundToNearestEven : real (ab 1 0x8000000000000001).ax = .finite false 1 ∧
    real (ab 1 0x8000000000000001).bx = .finite true 1 ∧ signedMag false 1 + signedMag true 1 = 0 ∧
    signedMag false 1 - signedMag true 1 ≠ 0 ∧
    real (ab 0x7FEFFFFFFFFFFFFF 0x7FEFFFFFFFFFFFFF).ax = .finite false ((2 ^ 53 - 1) * 2 ^ 2045) ∧
    ¬((2 ^ 53 - 1) * 2 ^ 2045 + (2 ^ 53 - 1) * 2 ^ 2045) < overflowUnits := by decide +kernel
theorem witness_FloatProductsRoundToNearestEven : real (ab 1 0x7FEFFFFFFFFFFFFF).ax = .finite false 1 ∧
    real (ab 1 0x7FEFFFFFFFFFFFFF).bx = .finite false ((2 ^ 53 - 1) * 2 ^ 2045) ∧ (2 ^ 53 - 1) * 2 ^ 2045 ≠ 0 ∧
    real (ab 1 0).bx = .finite false 0 := by decide +kernel
theorem witness_FloatInfinitiesAndZeroDivisors :
    (real (ab 1 0x8000000000000000).ax = .finite false 1 ∧ real (ab 1 0x8000000000000000).bx = .finite true 0) ∧
    (real (ab 1 0xFFF0000000000000).ax = .finite false 1 ∧ real (ab 1 0xFFF0000000000000).bx = .inf true) ∧
    (real (ab 0x7FF0000000000000 1).ax = .inf false ∧ real (ab 0x7FF0000000000000 1).bx = .finite false 1) ∧
    (real (ab 0x7FF0000000000000 0x7FF0000000000000).ax = .inf false ∧
      real (ab 0x7FF0000000000000 0x7FF0000000000000).bx = .inf false) ∧
    (real (ab 0x7FF0000000000000 0xFFF0000000000000).ax = .inf false ∧
      real (ab 0x7FF0000000000000 0xFFF0000000000000).bx = .inf true ∧ false ≠ true) := by decide +kernel
theorem witness_ShiftResults : 64 ≤ (ab 1 64).bx.toNat ∧ ¬64 ≤ (ab 1 63).bx.toNat := by decide
theorem witness_JumpsWriteOnlyIp : Instr.jmp ∈ jumps ∧ Instr.fjle ∈ jumps := by decide
theorem witness_FloatJumps : (abC 0x8000000000000000 0).params.defectMode = .corrected ∧
    (abL 0x7FF8000000000000 0).params.defectMode = .literal ∧
    real (abC 0x8000000000000000 0).ax = .finite true 0 ∧ real (abC 0x8000000000000000 0).bx = .finite false 0 := by
  decide +kernel

/-- The last Word of memory as the text of a syscall 0. -/
def lastChar (w cx : Word) : State := { core with dx := 15, cx := cx, mem := [(15, w)], acks := 1 }
theorem witness_SyscallWrite_done : (lastChar 0x10FFFF 1).ax = 0 ∧
    (∀ k, k < (lastChar 0x10FFFF 1).cx.toNat →
      (lastChar 0x10FFFF 1).dx.toNat + k < (lastChar 0x10FFFF 1).params.memWords.toNat ∧
      isScalarValue ((lastChar 0x10FFFF 1).mem.read ((lastChar 0x10FFFF 1).dx.toNat + k)) = true) ∧
    (lastChar 0x10FFFF 1).acks = 0 + 1 := by decide
theorem witness_SyscallWrite_nothing_to_write : { core with dx := 0xFFFFFFFFFFFFFFFF }.ax = 0 ∧
    ∀ k, k < { core with dx := 0xFFFFFFFFFFFFFFFF }.cx.toNat → False := by decide
theorem witness_SyscallWrite_past_end : (lastChar 0x41 2).ax = 0 ∧ 1 < (lastChar 0x41 2).cx.toNat ∧
    (∀ j, j < 1 → (lastChar 0x41 2).dx.toNat + j < (lastChar 0x41 2).params.memWords.toNat ∧
      isScalarValue ((lastChar 0x41 2).mem.read ((lastChar 0x41 2).dx.toNat + j)) = true) ∧
    (lastChar 0x41 2).params.memWords.toNat ≤ (lastChar 0x41 2).dx.toNat + 1 := by decide
theorem witness_SyscallWrite_no_character : (lastChar 0x110000 1).ax = 0 ∧ 0 < (lastChar 0x110000 1).cx.toNat ∧
    (lastChar 0x110000 1).dx.toNat + 0 < (lastChar 0x110000 1).params.memWords.toNat ∧
    isScalarValue ((lastChar 0x110000 1).mem.read ((lastChar 0x110000 1).dx.toNat + 0)) = false ∧
    isScalarValue 0xD800 = false ∧ isScalarValue 0xDFFF = false ∧ isScalarValue 0xE000 = true := by decide

/-- A core that waits for a line, and the lines the host will give it. -/
def waiting (dx : Word) (ls : List (List Word)) : State :=
  { core with ax := 1, dx := dx, runState := .blockedIn, lines := ls }
theorem witness_SyscallReadLine : (ab 1 0).ax = 1 ∧ (waiting 14 [[0x6F, 0x6B]]).runState = .blockedIn ∧
    (waiting 14 [[0x6F, 0x6B]]).lines = [[0x6F, 0x6B]] ∧
    (waiting 14 [[0x6F, 0x6B]]).dx.toNat + 2 - 1 < (waiting 14 [[0x6F, 0x6B]]).params.memWords.toNat ∧
    ¬(waiting 15 [[0x6F, 0x6B]]).dx.toNat + 2 - 1 < (waiting 15 [[0x6F, 0x6B]]).params.memWords.toNat ∧
    (waiting 15 [[0x6F, 0x6B]]).dx.toNat < (waiting 15 [[0x6F, 0x6B]]).params.memWords.toNat ∧
    ¬(waiting 16 [[0x6F]]).dx.toNat < (waiting 16 [[0x6F]]).params.memWords.toNat ∧
    (waiting 0xFFFFFFFFFFFFFFFF [[]]).lines = [[]] := by decide
theorem witness_SyscallTerminate : (ab 2 0).ax = 2 ∧ (ab 2 0).runState = .running := by decide
theorem witness_UnknownSelectorFaults :
    ((ab 3 0).ax ≠ 0 ∧ (ab 3 0).ax ≠ 1 ∧ (ab 3 0).ax ≠ 2) ∧
    (ab 0xFFFFFFFFFFFFFFFF 0).ax ≠ 0 ∧ (ab 0xFFFFFFFFFFFFFFFF 0).ax ≠ 1 ∧ (ab 0xFFFFFFFFFFFFFFFF 0).ax ≠ 2 := by decide
theorem witness_BlockedCoreWaitsForTheHost :
    ({ core with runState := .blockedOut }.runState = .blockedOut ∧ { core with runState := .blockedOut }.acks = 0) ∧
    ({ core with runState := .blockedOut, acks := 1 }.runState = .blockedOut ∧
      { core with runState := .blockedOut, acks := 1 }.acks = 0 + 1) ∧
    ((waiting 0 []).runState = .blockedIn ∧ (waiting 0 []).lines = []) := by decide
theorem witness_OnlySyscallReachesTheHost :
    (∃ t, exec .add core = .next t) ∧ ∃ t, exec .syscall hi = .next t ∧ t.output = hi.output ++ [.char 0x48, .char 0x69, .flush] :=
  ⟨⟨_, rfl⟩, _, rfl, by decide⟩
theorem witness_InstructionsIgnorePendingHostAnswers : ∃ t, exec .syscall hi = .next t := ⟨_, rfl⟩
theorem witness_ImmediateLoads : (at_ 14 0x28).runState = .running ∧ OpcodeMap.ok (at_ 14 0x28).params.opcodeMap = true ∧
    (at_ 14 0x28).ip.toNat < (at_ 14 0x28).params.memWords.toNat ∧
    (at_ 14 0x28).mem.read (at_ 14 0x28).ip.toNat = opcodeWord (at_ 14 0x28).params.opcodeMap (.moveOpToCx 0) ∧
    (at_ 14 0x28).ip.toNat + 1 < (at_ 14 0x28).params.memWords.toNat ∧
    (at_ 15 0x28).ip.toNat < (at_ 15 0x28).params.memWords.toNat ∧
    (at_ 15 0x28).mem.read (at_ 15 0x28).ip.toNat = opcodeWord (at_ 15 0x28).params.opcodeMap (.moveOpToCx 0) ∧
    ¬(at_ 15 0x28).ip.toNat + 1 < (at_ 15 0x28).params.memWords.toNat := by decide

theorem witness_FaultsArePrecise_no_output : (at_ 0 1).runState = .running ∧
    (next (step (at_ 0 1))).map (·.runState) = some .faulted := by decide
theorem witness_FaultsArePrecise_line : (waiting 16 [[0x6F]]).runState = .blockedIn ∧
    (next (step (waiting 16 [[0x6F]]))).map (·.runState) = some .faulted := by decide
theorem witness_FaultsArePrecise_output :
    (next (step { lastChar 0x41 2 with mem := [(0, 0x25), (15, 0x41)] })).map (fun t => (t.runState, t.output)) =
      some (.faulted, [.char 0x41]) := by decide
theorem witness_FaultCausesByInstruction :
    [exec .syscall (ab 3 0), exec .pop core, exec .div (ab 8 4), exec .shl (ab 1 64), exec .deref core,
      exec .syscall (lastChar 0xD800 1)].map (fun o => (next o).map fun t => (t.runState, t.faultCause.code)) =
    [some (.faulted, 2), some (.faulted, 3), some (.faulted, 6), some (.faulted, 7), some (.faulted, 8),
      some (.faulted, 9)] ∧ core.runState ≠ .faulted := by decide
theorem witness_CastFailureIsNeverRaised : (at_ 0 0x0A).faultCause ≠ .castFailure ∧ ∃ t, step (at_ 0 0x0A) = .next t :=
  ⟨by decide, _, rfl⟩
theorem witness_MemoryChangesOnlyWhereWritten_exec : (∃ t, exec .push core = .next t) ∧
    (∃ t, exec .call core = .next t) ∧ ∃ t, exec .syscall hi = .next t := ⟨⟨_, rfl⟩, ⟨_, rfl⟩, _, rfl⟩
theorem witness_MemoryChangesOnlyWhereWritten_push :
    (next (step { core with cx := 5 })).map (·.mem.read 15) = some 5 ∧ { core with cx := 5 }.mem.read 15 = 0 ∧
    (next (step { at_ 4 0x23 with sp := 1 })).map (·.mem.read 0) = some 5 ∧ (at_ 4 0x23).mem.read 0 = 0 := by decide
theorem witness_MemoryChangesOnlyWhereWritten_line :
    (next (step (waiting 14 [[0x6F, 0x6B]]))).map (fun t => (t.mem.read 14, t.mem.read 15)) = some (0x6F, 0x6B) ∧
    (waiting 14 [[0x6F, 0x6B]]).mem.read 14 = 0 ∧ (waiting 14 [[0x6F, 0x6B]]).mem.read 15 = 0 := by decide
theorem witness_InstructionsAdvanceByFormat :
    [exec (.moveOpToAx 7) core, exec .jmp (abL 1 2), exec .call { core with dx := 9 },
      exec .ret { core with sp := 15, mem := [(15, 5)] }, exec .syscall (ab 2 0), exec .je (abL 4 4), exec .je (abL 4 5),
      exec .add core].map (fun o => (next o).map fun t => (t.runState, t.ip)) =
    [some (.running, 2), some (.running, 9), some (.running, 9), some (.running, 5), some (.running, 16),
      some (.running, 9), some (.running, 1), some (.running, 1)] := by decide
theorem witness_IpNeverWraps : (at_ 15 5).runState = .running ∧ (at_ 15 5).ip.toNat < (at_ 15 5).params.memWords.toNat ∧
    (next (step (at_ 15 5))).map (·.ip) = some 16 ∧ (next (step (at_ 14 0x26))).map (·.ip) = some 16 := by decide
theorem witness_ParametersAndReservedPointersStay : (∃ t, step core = .next t) ∧
    { core with runState := .loaded, commands := [.start] }.runState = .loaded ∧
    ∃ t, step { core with runState := .loaded, commands := [.start] } = .next t := ⟨⟨_, rfl⟩, rfl, _, rfl⟩

/-- A core at power-up to which the host will load an image and which it will start. -/
def boot (words : List Word) (entry : Word) : State :=
  { core with runState := .reset, commands := [.load words entry, .start] }
theorem witness_MemoryChangesOnlyWhereWritten_load :
    (next (step (boot [2, 3] 0))).map (fun t => (t.mem.read 0, t.mem.read 1)) = some (2, 3) ∧
    (boot [2, 3] 0).mem.read 0 = 0 ∧ (boot [2, 3] 0).mem.read 1 = 0 := by decide
theorem witness_LoadCopiesTheImage_ignored :
    { core with runState := .loaded, commands := [.load [5] 3] }.commands = .load [5] 3 :: [] ∧
    core.runState ≠ .reset ∧ core.runState ≠ .loaded ∧ ∃ t, step core = .next t :=
  ⟨rfl, by decide, by decide, _, rfl⟩
theorem witness_StartSetsThePointers_ignored : { core with runState := .reset, commands := [.start] }.runState = .reset ∧
    { core with runState := .reset, commands := [.start] }.commands = .start :: [] := by decide
theorem witness_LoadCopiesTheImage : (boot [2, 2] 0).runState = .reset ∧
    (boot [2, 2] 0).commands = .load [2, 2] 0 :: [.start] ∧
    (List.replicate 16 (2 : Word)).length ≤ (boot [2, 2] 0).params.memWords.toNat ∧
    ¬(List.replicate 17 (2 : Word)).length ≤ (boot [2, 2] 0).params.memWords.toNat ∧ core.runState ≠ .reset := by decide
theorem witness_StartSetsThePointers : { core with runState := .loaded, commands := [.start] }.runState = .loaded ∧
    { core with runState := .loaded, commands := [.start] }.commands = .start :: [] ∧ core.runState ≠ .loaded := by decide
theorem witness_StateAtFirstFetch : (boot [2, 2] 1).runState = .reset ∧ (boot [2, 2] 1).faultCause = .none ∧
    (boot [2, 2] 1).output = [] ∧ (boot [2, 2] 1).commands = .load [2, 2] 1 :: .start :: [] ∧
    [2, 2].length ≤ (boot [2, 2] 1).params.memWords.toNat := by decide
theorem witness_EntryBeyondMemoryHaltsAtOnce : (boot [2] 16).runState = .reset ∧
    (boot [2] 16).commands = .load [2] 16 :: .start :: [] ∧ [2].length ≤ (boot [2] 16).params.memWords.toNat ∧
    (boot [2] 16).params.memWords.toNat ≤ (16 : Word).toNat := by decide
/-- A SYSCALL at the last address that waits for its flush, with an answer to come. -/
def flushing : State := { core with ip := 15, mem := [(15, 0x25)], runState := .blockedOut, acks := 1 }
/-- A SYSCALL at the last address that waits for a line, which comes. -/
def reading : State := { core with
  ax := 1
  ip := 15
  mem := [(15, 0x25)]
  runState := .blockedIn
  lines := [[0x6F]] }
theorem core_inv : core.Inv :=
  ⟨by decide, by decide, by decide, by decide, by unfold State.statusOk; decide,
    by unfold State.phaseOk State.atSyscall; decide, by decide⟩
theorem flushing_inv : flushing.Inv :=
  ⟨by decide, by decide, by decide, by decide, by unfold State.statusOk; decide,
    by unfold State.phaseOk State.atSyscall; decide, by decide⟩
theorem reading_inv : reading.Inv :=
  ⟨by decide, by decide, by decide, by decide, by unfold State.statusOk; decide,
    by unfold State.phaseOk State.atSyscall; decide, by decide⟩
theorem boot_inv : (boot [2] 16).Inv :=
  ⟨by decide, by decide, by decide, by decide, by unfold State.statusOk; decide,
    by unfold State.phaseOk State.atSyscall; decide, by decide⟩
theorem witness_IpNeverWraps_invariant : core.Inv ∧ flushing.Inv ∧ reading.Inv ∧ (boot [2] 16).Inv ∧
    [step flushing, step reading, step (boot [2] 16)].map ipOf = [some 16, some 16, some 16] :=
  ⟨core_inv, flushing_inv, reading_inv, boot_inv, by decide⟩
theorem witness_StepKeepsTheInvariant : core.Inv ∧ flushing.Inv ∧ reading.Inv ∧ ∃ t, step core = .next t :=
  ⟨core_inv, flushing_inv, reading_inv, _, rfl⟩

end Sys2Proof.Tests
end

/-! # State and instruction cycle (10_state.md)

What the decoder makes of an encoded instruction, what a running step makes of the Words at `ip`, and what every
instruction does to `ip` and leaves of the parameters and the reserved pointers. -/

/-! ## The decoder on an encoded instruction -/

namespace Sys2Proof

/-- Every instruction stands in the catalog at its position, in the format of its operand Words. -/
theorem catalogued : ∀ i : Instr, Laws.Catalogued.Statement i
  | .push => Laws.Catalogued.push | .pop => Laws.Catalogued.pop
  | .inc => Laws.Catalogued.inc | .dec => Laws.Catalogued.dec | .neg => Laws.Catalogued.neg
  | .add => Laws.Catalogued.add | .sub => Laws.Catalogued.sub | .mul => Laws.Catalogued.mul
  | .div => Laws.Catalogued.div
  | .fneg => Laws.Catalogued.fneg | .fadd => Laws.Catalogued.fadd | .fsub => Laws.Catalogued.fsub
  | .fmul => Laws.Catalogued.fmul | .fdiv => Laws.Catalogued.fdiv
  | .and => Laws.Catalogued.and | .or => Laws.Catalogued.or | .xor => Laws.Catalogued.xor
  | .not => Laws.Catalogued.not | .shl => Laws.Catalogued.shl | .shr => Laws.Catalogued.shr
  | .jmp => Laws.Catalogued.jmp | .je => Laws.Catalogued.je | .jne => Laws.Catalogued.jne
  | .jg => Laws.Catalogued.jg | .jge => Laws.Catalogued.jge | .jl => Laws.Catalogued.jl
  | .jle => Laws.Catalogued.jle | .ja => Laws.Catalogued.ja | .jae => Laws.Catalogued.jae
  | .jb => Laws.Catalogued.jb | .jbe => Laws.Catalogued.jbe
  | .fjg => Laws.Catalogued.fjg | .fjge => Laws.Catalogued.fjge | .fjl => Laws.Catalogued.fjl
  | .fjle => Laws.Catalogued.fjle
  | .call => Laws.Catalogued.call | .ret => Laws.Catalogued.ret | .syscall => Laws.Catalogued.syscall
  | .moveOpToAx imm => Laws.Catalogued.moveOpToAx imm | .moveOpToBx imm => Laws.Catalogued.moveOpToBx imm
  | .moveOpToCx imm => Laws.Catalogued.moveOpToCx imm | .moveOpToDx imm => Laws.Catalogued.moveOpToDx imm
  | .moveAxToBx => Laws.Catalogued.moveAxToBx | .moveAxToCx => Laws.Catalogued.moveAxToCx
  | .moveAxToDx => Laws.Catalogued.moveAxToDx | .moveBxToAx => Laws.Catalogued.moveBxToAx
  | .moveBxToCx => Laws.Catalogued.moveBxToCx | .moveBxToDx => Laws.Catalogued.moveBxToDx
  | .moveCxToAx => Laws.Catalogued.moveCxToAx | .moveCxToBx => Laws.Catalogued.moveCxToBx
  | .moveCxToDx => Laws.Catalogued.moveCxToDx | .moveDxToAx => Laws.Catalogued.moveDxToAx
  | .moveDxToBx => Laws.Catalogued.moveDxToBx | .moveDxToCx => Laws.Catalogued.moveDxToCx
  | .cwtor => Laws.Catalogued.cwtor | .cswtor => Laws.Catalogued.cswtor | .crtow => Laws.Catalogued.crtow
  | .crtosw => Laws.Catalogued.crtosw
  | .deref => Laws.Catalogued.deref

/-- Under a legal map an instruction's opcode Word finds its own catalog entry (30_encoding.md R75, R76). -/
theorem decodeOpcode_opcodeWord {map : OpcodeMap} (hm : OpcodeMap.ok map = true) (i : Instr) :
    decodeOpcode map (opcodeWord map i) = catalog i.index := by
  obtain ⟨hlen, hnodup⟩ := OpcodeMap.ok_iff.1 hm
  have hi : i.index < map.length := hlen ▸ (catalogued i).1
  have hget : map[i.index]? = some (opcodeWord map i) := by
    simp [opcodeWord, List.getD_eq_getElem?_getD, List.getElem?_eq_getElem hi]
  simp [decodeOpcode, opcodeIndex_of_nodup hnodup hget]

/-- Decoding takes an instruction's Words off the front of a list and leaves the rest (30_encoding.md R71 to R73). -/
theorem decode_encode_append {map : OpcodeMap} (hm : OpcodeMap.ok map = true) (i : Instr) (rest : List Word) :
    decode map (encode map i ++ rest) = .ok (i, rest) := by
  have hop := decodeOpcode_opcodeWord hm i
  rcases (catalogued i).2 with ⟨hw, hc⟩ | ⟨build, imm, hw, hc, hb⟩
  · simp [encode, decode, hw, hop, hc]
  · simp [encode, decode, hw, hop, hc, hb]

/-- An F2 opcode Word with no Word after it lacks its immediate (30_encoding.md R72). -/
theorem decode_missingImmediate {map : OpcodeMap} (hm : OpcodeMap.ok map = true) {i : Instr} {build : Word → Instr}
    (hc : catalog i.index = some (.f2 build)) : decode map [opcodeWord map i] = .error .missingImmediate := by
  simp [decode, decodeOpcode_opcodeWord hm, hc]

/-- A Word outside the map is an unknown opcode, whatever follows it (30_encoding.md R78). -/
theorem decode_unknownOpcode {map : OpcodeMap} {op : Word} (h : op ∉ map) (rest : List Word) :
    decode map (op :: rest) = .error (.unknownOpcode op) := by
  simp [decode, decodeOpcode, opcodeIndex_none.2 h]

/-- The opcode Word depends on the position in the catalog only. -/
theorem opcodeWord_congr {i j : Instr} (h : i.index = j.index) (map : OpcodeMap) :
    opcodeWord map i = opcodeWord map j := by
  rw [opcodeWord, opcodeWord, h]

/-- The four immediate loads are catalogued in format F2 (30_encoding.md R74). -/
theorem catalog_immediateLoad {build : Word → Instr}
    (hb : build ∈ [Instr.moveOpToAx, Instr.moveOpToBx, Instr.moveOpToCx, Instr.moveOpToDx]) :
    catalog (build 0).index = some (.f2 build) := by
  simp only [List.mem_cons, List.not_mem_nil, or_false] at hb
  rcases hb with rfl | rfl | rfl | rfl <;> rfl

end Sys2Proof

namespace Sys2Proof.Machine

open Sys2Proof.Claims

/-! ## Fetching at `ip` -/

/-- The fetch reads the Word at `ip`, and the next one where it exists (20_memory.md R52). -/
theorem State.fetchWords_eq (s : State) :
    s.fetchWords = s.mem.read s.ip.toNat ::
      if s.ip.toNat + 1 < s.params.memWords.toNat then [s.mem.read (s.ip.toNat + 1)] else [] := by
  unfold State.fetchWords
  split <;> rfl

/-- The fetch gives the instruction that the Words read decode to. -/
theorem State.fetch_of_decode_ok {s : State} {i : Instr} {rest : List Word}
    (h : decode s.params.opcodeMap s.fetchWords = .ok (i, rest)) : s.fetch = .ok i := by
  rw [State.fetch, h]

/-- A Word outside the map faults at its fetch (30_encoding.md R78). -/
theorem State.fetch_of_not_mem {s : State} (h : s.mem.read s.ip.toNat ∉ s.params.opcodeMap) :
    s.fetch = .error (.unknownOpcode (s.mem.read s.ip.toNat)) := by
  rw [State.fetch, s.fetchWords_eq, decode_unknownOpcode h]

/-- An F2 opcode in the last Word of memory faults at its fetch (47_move.md R240). -/
theorem State.fetch_of_missingImmediate {s : State} (hm : OpcodeMap.ok s.params.opcodeMap = true) {i : Instr}
    {build : Word → Instr} (hc : catalog i.index = some (.f2 build))
    (hop : s.mem.read s.ip.toNat = opcodeWord s.params.opcodeMap i)
    (hlast : ¬s.ip.toNat + 1 < s.params.memWords.toNat) : s.fetch = .error (.outOfBounds (s.ip + 1)) := by
  rw [State.fetch, s.fetchWords_eq, if_neg hlast, hop, decode_missingImmediate hm hc]

/-- Where an instruction's Words stand in memory from `ip` up, the fetch reads them first. -/
theorem State.fetchWords_of_stored {s : State} {i : Instr}
    (hst : ∀ k w, (encode s.params.opcodeMap i)[k]? = some w →
      s.ip.toNat + k < s.params.memWords.toNat ∧ s.mem.read (s.ip.toNat + k) = w) :
    ∃ rest, s.fetchWords = encode s.params.opcodeMap i ++ rest := by
  obtain ⟨-, hop⟩ := hst 0 _ rfl
  rw [s.fetchWords_eq]
  rcases (catalogued i).2 with ⟨hw, -⟩ | ⟨-, imm, hw, -⟩
  · exact ⟨_, by simp only [encode, hw]; rw [← hop]; rfl⟩
  · obtain ⟨hroom, himm⟩ := hst 1 imm (by simp [encode, hw])
    refine ⟨[], ?_⟩
    rw [if_pos hroom, himm]
    simp only [encode, hw]
    rw [← hop]
    rfl

/-! ## The running step -/

/-- With `ip` in memory, a running step executes the instruction fetched (10_state.md R32). -/
theorem step_of_fetch_ok {s : State} {i : Instr} (hr : s.runState = .running)
    (hip : s.ip.toNat < s.params.memWords.toNat) (hf : s.fetch = .ok i) : step s = exec i s := by
  rw [step_running hr, cycle, if_neg (by omega), hf]

/-- With `ip` in memory, a running step takes the fault of its fetch (60_exceptions.md R305). -/
theorem step_of_fetch_error {s : State} {c : FaultCause} (hr : s.runState = .running)
    (hip : s.ip.toNat < s.params.memWords.toNat) (hf : s.fetch = .error c) : step s = .next (s.raise c) := by
  rw [step_running hr, cycle, if_neg (by omega), hf]

/-- The terminal check (10_state.md R32). -/
theorem step_of_ip_past_memory {s : State} (hr : s.runState = .running)
    (hip : s.params.memWords.toNat ≤ s.ip.toNat) : step s = .next s.halt := by
  rw [step_running hr, cycle, if_pos hip]

/-- An instruction whose Words stand in memory from `ip` up is the one executed. -/
theorem step_of_stored {s : State} {i : Instr} (hr : s.runState = .running)
    (hm : OpcodeMap.ok s.params.opcodeMap = true)
    (hst : ∀ k w, (encode s.params.opcodeMap i)[k]? = some w →
      s.ip.toNat + k < s.params.memWords.toNat ∧ s.mem.read (s.ip.toNat + k) = w) : step s = exec i s := by
  obtain ⟨hip, -⟩ := hst 0 _ rfl
  obtain ⟨rest, hws⟩ := State.fetchWords_of_stored hst
  exact step_of_fetch_ok hr hip (State.fetch_of_decode_ok (hws ▸ decode_encode_append hm i rest))

/-- A one-word instruction whose opcode stands at `ip` is executed. -/
theorem step_of_opcode_f1 {s : State} {i : Instr} (hr : s.runState = .running)
    (hm : OpcodeMap.ok s.params.opcodeMap = true) (hip : s.ip.toNat < s.params.memWords.toNat)
    (hw : i.operandWords = []) (hop : s.mem.read s.ip.toNat = opcodeWord s.params.opcodeMap i) :
    step s = exec i s := by
  refine step_of_stored hr hm fun k w hk => ?_
  rw [encode, hw] at hk
  match k with
  | 0 => exact ⟨hip, hop.trans (by simpa using hk)⟩
  | k + 1 => simp at hk

/-- An instruction whose opcode stands at `ip` and whose one operand Word stands after it is executed. -/
theorem step_of_opcode_f2 {s : State} {i : Instr} (hr : s.runState = .running)
    (hm : OpcodeMap.ok s.params.opcodeMap = true) (hroom : s.ip.toNat + 1 < s.params.memWords.toNat)
    (hw : i.operandWords = [s.mem.read (s.ip.toNat + 1)])
    (hop : s.mem.read s.ip.toNat = opcodeWord s.params.opcodeMap i) : step s = exec i s := by
  refine step_of_stored hr hm fun k w hk => ?_
  rw [encode, hw] at hk
  match k with
  | 0 => exact ⟨by omega, hop.trans (by simpa using hk)⟩
  | 1 => exact ⟨hroom, by simpa using hk⟩
  | k + 2 => simp at hk

/-! ## What an instruction does to `ip` -/

/-- Syscall 0 blocks or faults; it never goes on in RUNNING (46_syscall.md R212). -/
theorem sysWrite_stops (s : State) : (sysWrite s).runState ≠ .running := by
  rcases sysWrite_cases s with ⟨_, _, e⟩ | ⟨_, _, _, e⟩ <;> simp [e]

/-- Syscall 0 leaves `ip` at the SYSCALL (log 17). -/
theorem sysWrite_ip (s : State) : (sysWrite s).ip = s.ip := by
  rcases sysWrite_cases s with ⟨_, _, e⟩ | ⟨_, _, _, e⟩ <;> rw [e]

/-- The conditional jumps have no operand Word and are none of the transfers that are always taken. -/
theorem conditionalJump_facts :
    ∀ i ∈ jumps.tail, i.operandWords = [] ∧ ¬(i = .jmp ∨ i = .call) ∧ i ≠ .ret ∧ i ≠ .syscall ∧ i ∈ jumps := by
  decide

/-- Every way an instruction can leave `ip`: kept (a fault or a block), advanced by one, by two only for an immediate
load, or taken from `dx`, the stack or MEM_WORDS (10_state.md R33). -/
theorem exec_ip {i : Instr} {s t : State} (h : exec i s = .next t) :
    t.ip = s.ip ∨ t.ip = s.ip + 1 ∨ (i.operandWords ≠ [] ∧ t.ip = s.ip + 2) ∨
    t.ip = s.dx ∨ t.ip = s.mem.read s.sp.toNat ∨ t.ip = s.params.memWords := by
  rcases exec_cases h with ⟨-, hsys⟩ | ⟨-, hpush⟩ | ⟨-, hpop⟩ | ⟨c, -, rfl⟩ | ⟨-, -, hip⟩
  · rcases hsys with ⟨-, rfl⟩ | ⟨-, rfl⟩ | ⟨-, rfl⟩ | rfl
    · exact .inl (sysWrite_ip s)
    · exact .inl rfl
    · exact .inr (.inr (.inr (.inr (.inr rfl))))
    · exact .inl rfl
  · rcases hpush with ⟨-, rfl⟩ | ⟨-, rfl⟩
    · exact .inr (.inl rfl)
    · exact .inr (.inr (.inr (.inl rfl)))
  · rcases hpop with ⟨-, rfl⟩ | ⟨-, rfl⟩
    · exact .inr (.inl rfl)
    · exact .inr (.inr (.inr (.inr (.inl rfl))))
  · exact .inl rfl
  · rcases hip with ⟨-, e⟩ | ⟨-, e | e⟩ | ⟨hw, e⟩ | ⟨-, -, e⟩
    · exact .inr (.inr (.inr (.inl e)))
    · exact .inr (.inr (.inr (.inl e)))
    · exact .inr (.inl e)
    · exact .inr (.inr (.inl ⟨hw, e⟩))
    · exact .inr (.inl e)

/-- An advance by one from below a Word's value does not wrap. -/
theorem toNat_add_one_of_lt {a limit : Word} (h : a.toNat < limit.toNat) : (a + 1).toNat = a.toNat + 1 := by
  bv_omega

/-- An advance by two over a Word that is in memory does not wrap. -/
theorem toNat_add_two_of_lt {a limit : Word} (h : a.toNat + 1 < limit.toNat) : (a + 2).toNat = a.toNat + 2 := by
  bv_omega

/-- A running step with `ip` in memory never wraps it: an F2 instruction is fetched only where its immediate is in
memory, so even the advance by two is exact (10_state.md R24). -/
theorem step_running_ip {s t : State} (hr : s.runState = .running) (hip : s.ip.toNat < s.params.memWords.toNat)
    (h : step s = .next t) :
    t.ip = s.ip ∨ t.ip.toNat = s.ip.toNat + 1 ∨ t.ip.toNat = s.ip.toNat + 2 ∨ t.ip = s.dx ∨
      t.ip = s.mem.read s.sp.toNat ∨ t.ip = s.params.memWords := by
  rcases step_running_cases hr h with ⟨hend, -⟩ | ⟨-, i, hf, he⟩ | ⟨-, c, -, rfl⟩
  · omega
  · rcases exec_ip he with e | e | ⟨hw, e⟩ | e
    · exact .inl e
    · exact .inr (.inl (e ▸ toNat_add_one_of_lt hip))
    · exact .inr (.inr (.inl (e ▸ toNat_add_two_of_lt (State.fetch_immediate hf hw))))
    · exact .inr (.inr (.inr e))
  · exact .inl rfl

/-- In RESET and LOADED a core changes `ip` only by taking a `load` in RESET (10_state.md R23). -/
theorem State.takeCommand_ip (s : State) :
    s.takeCommand.ip = s.ip ∨
    (s.runState = .reset ∧
      ∃ words entry later, s.commands = .load words entry :: later ∧ s.takeCommand.ip = entry) := by
  rcases s.takeCommand_cases with ⟨-, e⟩ | ⟨c, later, hc, e | ⟨-, _, _, -, -, e⟩ | ⟨hr, ws, entry, rfl, -, e⟩ |
    ⟨-, -, e⟩⟩
  · exact .inl (by rw [e])
  · exact .inl (by rw [e])
  · exact .inl (by rw [e])
  · exact .inr ⟨hr, ws, entry, later, hc, by rw [e]⟩
  · exact .inl (by rw [e])

/-- The end of a write keeps `ip` or advances it by one (46_syscall.md R216). -/
theorem State.completeWrite_ip (s : State) : s.completeWrite.ip = s.ip ∨ s.completeWrite.ip = s.ip + 1 := by
  rcases s.completeWrite_cases with ⟨-, e⟩ | ⟨_, -, e⟩
  · exact .inl (by rw [e])
  · exact .inr (by rw [e])

/-- The end of a read keeps `ip` or advances it by one (46_syscall.md R213, R216). -/
theorem State.completeReadLine_ip (s : State) :
    s.completeReadLine.ip = s.ip ∨ s.completeReadLine.ip = s.ip + 1 := by
  rcases s.completeReadLine_cases with ⟨-, e⟩ | ⟨_, _, -, -, -, e⟩ | ⟨_, _, -, -, e⟩
  · exact .inl (by rw [e])
  · exact .inl (by rw [e])
  · exact .inr (by rw [e])

/-! ## The parameters and the reserved pointers -/

/-- The two states agree on what no instruction writes: the parameters, `fp` and `lp`. -/
def SameReserved (s t : State) : Prop := t.params = s.params ∧ t.fp = s.fp ∧ t.lp = s.lp

/-- The registers such an instruction writes are not the reserved ones. -/
theorem RegistersOnly.sameReserved {s t : State} (h : RegistersOnly s t) : SameReserved s t := by
  unfold RegistersOnly at h
  exact ⟨by rw [h], by rw [h], by rw [h]⟩

/-- No instruction writes the parameters, `fp` or `lp` (10_state.md R26). -/
theorem exec_sameReserved {i : Instr} {s t : State} (h : exec i s = .next t) : SameReserved s t := by
  rcases exec_cases h with ⟨-, hsys⟩ | ⟨-, ⟨-, rfl⟩ | ⟨-, rfl⟩⟩ | ⟨-, ⟨-, rfl⟩ | ⟨-, rfl⟩⟩ | ⟨c, -, rfl⟩ | ⟨-, hregs, -⟩
  · rcases hsys with ⟨-, rfl⟩ | ⟨-, rfl⟩ | ⟨-, rfl⟩ | rfl
    · rcases sysWrite_cases s with ⟨_, -, e⟩ | ⟨_, _, -, e⟩ <;> rw [e] <;> exact ⟨rfl, rfl, rfl⟩
    all_goals exact ⟨rfl, rfl, rfl⟩
  case inr.inr.inr.inr => exact hregs.sameReserved
  all_goals exact ⟨rfl, rfl, rfl⟩

/-- A running step writes neither the parameters nor `fp` nor `lp`. -/
theorem step_running_sameReserved {s t : State} (hr : s.runState = .running) (h : step s = .next t) :
    SameReserved s t := by
  rcases step_running_cases hr h with ⟨-, rfl⟩ | ⟨-, i, -, he⟩ | ⟨-, c, -, rfl⟩
  · exact ⟨rfl, rfl, rfl⟩
  · exact exec_sameReserved he
  · exact ⟨rfl, rfl, rfl⟩

/-- The end of a write leaves the parameters, `fp` and `lp`. -/
theorem State.completeWrite_sameReserved (s : State) : SameReserved s s.completeWrite := by
  rcases s.completeWrite_cases with ⟨-, e⟩ | ⟨_, -, e⟩ <;> rw [e] <;> exact ⟨rfl, rfl, rfl⟩

/-- The end of a read leaves the parameters, `fp` and `lp`. -/
theorem State.completeReadLine_sameReserved (s : State) : SameReserved s s.completeReadLine := by
  rcases s.completeReadLine_cases with ⟨-, e⟩ | ⟨_, _, -, -, -, e⟩ | ⟨_, _, -, -, e⟩ <;> rw [e] <;>
    exact ⟨rfl, rfl, rfl⟩

/-- A transaction of the host leaves the parameters, `fp` and `lp`, but for a `start` in LOADED (70_reset_and_hazards.md
R330, R331). -/
theorem State.takeCommand_reserved (s : State) :
    SameReserved s s.takeCommand ∨
    (s.runState = .loaded ∧ s.takeCommand.runState = .running ∧ s.takeCommand.params = s.params ∧
      s.takeCommand.fp = s.params.memWords ∧ s.takeCommand.lp = s.params.memWords - 1) := by
  rcases s.takeCommand_cases with ⟨-, e⟩ | ⟨c, later, -, e | ⟨-, _, _, -, -, e⟩ | ⟨-, _, _, -, -, e⟩ | ⟨hl, -, e⟩⟩
  case inr.inr.inr.inr => exact .inr (by rw [e]; exact ⟨hl, rfl, rfl, rfl, rfl⟩)
  all_goals exact .inl (by rw [e]; exact ⟨rfl, rfl, rfl⟩)

/-! ## The obligations -/

/-- Settles O5: the fetch reads exactly the Words the premise decodes. -/
theorem stepRunsDecodedInstruction : Obligations.StepRunsDecodedInstruction := by
  intro s i rest hr hip hd
  rw [← s.fetchWords_eq] at hd
  exact step_of_fetch_ok hr hip (State.fetch_of_decode_ok hd)

/-- Settles O6: the fetch reads the encoding first, and decoding inverts encoding. -/
theorem storedInstructionRuns : Obligations.StoredInstructionRuns :=
  fun _ _ hr hm hst => step_of_stored hr hm hst

/-- Settles O7, clause by clause of the cycle. -/
theorem runningCycle : Obligations.RunningCycle := by
  intro s hr hm
  refine ⟨step_of_ip_past_memory hr, fun hip => ⟨fun hout => ?unknown, fun hop => ?reserved, fun i hw hop => ?oneWord,
    fun build hb hop => ?immediate⟩⟩
  case unknown => exact step_of_fetch_error hr hip (State.fetch_of_not_mem hout)
  case reserved =>
    rw [step_of_opcode_f1 hr hm hip rfl hop, hop]
    rfl
  case oneWord => exact step_of_opcode_f1 hr hm hip hw hop
  case immediate =>
    have hc := catalog_immediateLoad hb
    split
    · next hroom =>
      obtain ⟨hidx, hw⟩ := catalog_f2 hc (s.mem.read (s.ip.toNat + 1))
      exact step_of_opcode_f2 hr hm hroom hw (hop.trans (opcodeWord_congr hidx.symm _))
    · next hlast => exact step_of_fetch_error hr hip (State.fetch_of_missingImmediate hm hc hop hlast)

/-- Settles O9. -/
theorem finalStatesStay : Obligations.FinalStatesStay := by
  rintro s (hh | hf)
  · rw [step, hh]
  · rw [step, hf]

/-- Settles O50: the branches of `exec_cases` that end in RUNNING, each with its way of writing `ip`. -/
theorem instructionsAdvanceByFormat : Obligations.InstructionsAdvanceByFormat := by
  intro i s t hs h ht
  rcases exec_cases h with ⟨rfl, hsys⟩ | ⟨-, ⟨rfl, rfl⟩ | ⟨rfl, rfl⟩⟩ | ⟨-, ⟨rfl, rfl⟩ | ⟨rfl, rfl⟩⟩ | ⟨c, -, rfl⟩ |
    ⟨hne, -, hip⟩
  · rcases hsys with ⟨-, rfl⟩ | ⟨-, rfl⟩ | ⟨-, rfl⟩ | rfl
    · exact absurd ht (sysWrite_stops s)
    · cases ht
    · rfl
    · cases ht
  · rfl
  · rfl
  · rfl
  · rfl
  · cases ht
  · rcases hip with ⟨rfl, e⟩ | ⟨hj, e⟩ | ⟨hw, e⟩ | ⟨hw, hj, e⟩
    · exact e
    · obtain ⟨hw, htransfer, hret, hsys, hmem⟩ := conditionalJump_facts i hj
      simp only [hw, htransfer, hret, hsys, hmem, ne_eq, not_true_eq_false, if_true, if_false]
      exact e
    · rw [if_pos hw]
      exact e
    · simp only [List.mem_cons, List.not_mem_nil, or_false, not_or] at hne hj
      simp only [jumps, List.mem_cons, List.not_mem_nil, hw, hne, hj, ne_eq, not_true_eq_false, or_self, if_false]
      exact e

/-- Settles O51: a running step by `step_running_ip`; a completed syscall stands at a SYSCALL in memory by the
invariant, so its advance is exact; a host transaction by `State.takeCommand_ip`. -/
theorem ipNeverWraps : Obligations.IpNeverWraps := by
  refine ⟨fun s t hr hip h => step_running_ip hr hip h, fun s t hinv h => ?_⟩
  obtain ⟨-, hout, hin⟩ := hinv.phase
  rcases step_cases h with ⟨-, rfl⟩ | hr | ⟨hb, rfl⟩ | ⟨hb, rfl⟩ | ⟨-, rfl⟩
  · exact s.takeCommand_ip.imp id .inr
  · by_cases hip : s.ip.toNat < s.params.memWords.toNat
    · rcases step_running_ip hr hip h with e | e | e
      · exact .inl e
      · exact .inr (.inl ⟨hip, .inl ⟨e, .inl hr⟩⟩)
      · exact .inr (.inl ⟨hip, .inr ⟨hr, e⟩⟩)
    · rw [step_of_ip_past_memory hr (by omega)] at h
      cases h
      exact .inl rfl
  · obtain ⟨⟨hip, -⟩, -⟩ := hout hb
    rcases s.completeWrite_ip with e | e
    · exact .inl e
    · exact .inr (.inl ⟨hip, .inl ⟨e ▸ toNat_add_one_of_lt hip, .inr (.inl hb)⟩⟩)
  · obtain ⟨⟨hip, -⟩, -⟩ := hin hb
    rcases s.completeReadLine_ip with e | e
    · exact .inl e
    · exact .inr (.inl ⟨hip, .inl ⟨e ▸ toNat_add_one_of_lt hip, .inr (.inr hb)⟩⟩)
  · exact .inl rfl

/-- Settles O52, by the frame of each kind of step. -/
theorem parametersAndReservedPointersStay : Obligations.ParametersAndReservedPointersStay := by
  intro s t h
  rcases step_cases h with ⟨-, rfl⟩ | hr | ⟨-, rfl⟩ | ⟨-, rfl⟩ | ⟨-, rfl⟩
  · rcases s.takeCommand_reserved with ⟨hp, hkeep⟩ | ⟨hl, hrun, hp, hptrs⟩
    · exact ⟨hp, .inl hkeep⟩
    · exact ⟨hp, .inr ⟨hl, hrun, hptrs⟩⟩
  · exact (step_running_sameReserved hr h).imp id .inl
  · exact s.completeWrite_sameReserved.imp id .inl
  · exact s.completeReadLine_sameReserved.imp id .inl
  · exact ⟨rfl, .inl ⟨rfl, rfl⟩⟩

end Sys2Proof.Machine

/-! # Memory (20_memory.md)

Which Words of memory an instruction, a host transaction and a step can change, and that the next fetch sees a Word
just pushed. -/

namespace Sys2Proof.Machine

/-! ## What each operation leaves of memory -/

/-- An address that reads differently after Words were written from `a` up is one of those written. -/
theorem Memory.range_of_read_writeList_ne {m : Memory} {a b : Nat} {vs : List Word}
    (h : (m.writeList a vs).read b ≠ m.read b) : a ≤ b ∧ b < a + vs.length := by
  rw [Memory.read_writeList] at h
  by_cases hab : a ≤ b
  · rw [if_pos hab] at h
    refine ⟨hab, ?_⟩
    by_contra hlen
    exact h (List.getD_eq_default vs _ (by omega))
  · exact absurd (if_neg hab) h

/-- An address that reads differently after a write is the one written. -/
theorem Memory.eq_of_read_write_ne {m : Memory} {a b : Nat} {v : Word} (h : (m.write a v).read b ≠ m.read b) : b = a :=
  by_contra fun hb => h (m.read_write_other hb v)

/-- Syscall 0 reads memory and writes none of it (46_syscall.md R212). -/
@[simp] theorem sysWrite_mem (s : State) : (sysWrite s).mem = s.mem := by
  rcases sysWrite_cases s with ⟨_, -, e⟩ | ⟨_, _, -, e⟩ <;> rw [e]

/-- An instruction that writes registers only leaves memory. -/
theorem RegistersOnly.mem {s t : State} (h : RegistersOnly s t) : t.mem = s.mem := by
  unfold RegistersOnly at h
  rw [h]

/-- An instruction leaves memory, or is a PUSH or CALL that writes one Word at `sp - 1` (20_memory.md R52). -/
theorem exec_mem {i : Instr} {s t : State} (h : exec i s = .next t) :
    t.mem = s.mem ∨
    ((i = .push ∨ i = .call) ∧ (s.sp - 1).toNat < s.params.memWords.toNat ∧
      ∃ v, t.mem = s.mem.write (s.sp - 1).toNat v) := by
  rcases exec_cases h with ⟨-, hsys⟩ | ⟨hroom, hpush⟩ | ⟨-, hpop⟩ | ⟨c, -, rfl⟩ | ⟨-, hregs, -⟩
  · left
    rcases hsys with ⟨-, rfl⟩ | ⟨-, rfl⟩ | ⟨-, rfl⟩ | rfl
    · exact sysWrite_mem s
    all_goals rfl
  · right
    rcases hpush with ⟨hi, rfl⟩ | ⟨hi, rfl⟩
    · exact ⟨.inl hi, hroom, _, rfl⟩
    · exact ⟨.inr hi, hroom, _, rfl⟩
  · left
    rcases hpop with ⟨-, rfl⟩ | ⟨-, rfl⟩ <;> rfl
  · exact .inl rfl
  · exact .inl hregs.mem

/-- A running step leaves memory, or runs a PUSH or CALL whose opcode stands at `ip` and which writes one Word at
`sp - 1`. -/
theorem step_running_mem {s t : State} (hr : s.runState = .running) (h : step s = .next t) :
    t.mem = s.mem ∨
    ((s.mem.read s.ip.toNat = opcodeWord s.params.opcodeMap .push ∨
        s.mem.read s.ip.toNat = opcodeWord s.params.opcodeMap .call) ∧
      (s.sp - 1).toNat < s.params.memWords.toNat ∧ ∃ v, t.mem = s.mem.write (s.sp - 1).toNat v) := by
  rcases step_running_cases hr h with ⟨-, rfl⟩ | ⟨-, i, hf, he⟩ | ⟨-, c, -, rfl⟩
  · exact .inl rfl
  · have hop := State.fetch_opcode hf
    rcases exec_mem he with e | ⟨rfl | rfl, hwrite⟩
    · exact .inl e
    · exact .inr ⟨.inl hop, hwrite⟩
    · exact .inr ⟨.inr hop, hwrite⟩
  · exact .inl rfl

/-- The end of a write leaves memory (46_syscall.md R216). -/
@[simp] theorem State.completeWrite_mem (s : State) : s.completeWrite.mem = s.mem := by
  rcases s.completeWrite_cases with ⟨-, e⟩ | ⟨_, -, e⟩ <;> rw [e]

/-- The end of a read leaves memory, or stores the line delivered, which is empty or fits (46_syscall.md R213). -/
theorem State.completeReadLine_mem (s : State) :
    s.completeReadLine.mem = s.mem ∨
    ∃ line later, s.lines = line :: later ∧ (line = [] ∨ s.dx.toNat + line.length ≤ s.params.memWords.toNat) ∧
      s.completeReadLine.mem = s.mem.writeList s.dx.toNat line := by
  rcases s.completeReadLine_cases with ⟨-, e⟩ | ⟨_, _, -, -, -, e⟩ | ⟨line, later, hl, hfit, e⟩
  · exact .inl (by rw [e])
  · exact .inl (by rw [e])
  · exact .inr ⟨line, later, hl, hfit, by rw [e]⟩

/-- A host transaction leaves memory, or is a `load` taken in RESET of an image that fits (70_reset_and_hazards.md
R330). -/
theorem State.takeCommand_mem (s : State) :
    s.takeCommand.mem = s.mem ∨
    (s.runState = .reset ∧ ∃ words entry later, s.commands = .load words entry :: later ∧
      words.length ≤ s.params.memWords.toNat ∧ s.takeCommand.mem = s.mem.writeList 0 words) := by
  rcases s.takeCommand_cases with ⟨-, e⟩ | ⟨c, later, hc, e | ⟨-, _, _, -, -, e⟩ | ⟨hr, words, entry, rfl, hfit, e⟩ |
    ⟨-, -, e⟩⟩
  case inr.inr.inr.inl => exact .inr ⟨hr, words, entry, later, hc, hfit, by rw [e]⟩
  all_goals exact .inl (by rw [e])

/-! ## A PUSH with room -/

/-- PUSH with `sp - 1` in memory stores `cx` there (40_stack.md R100). -/
theorem exec_push_of_room {s : State} (h : (s.sp - 1).toNat < s.params.memWords.toNat) :
    exec .push s = .next { s with mem := s.mem.write (s.sp - 1).toNat s.cx, sp := s.sp - 1, ip := s.ip + 1 } := by
  rcases s.pushWord_cases s.cx with ⟨-, e⟩ | ⟨hout, -⟩
  · simp only [exec, execPush, e]
    rfl
  · omega

/-! ## The obligations -/

/-- Settles O10: after the PUSH, `ip` is the address pushed to, so the next fetch reads the opcode in `cx`. -/
theorem pushedWordIsFetchedNext : Obligations.PushedWordIsFetchedNext := by
  intro s i hr hm hroom hsp hpush hw hcx
  have hip : (s.ip + 1).toNat = s.ip.toNat + 1 := toNat_add_one_of_lt (limit := s.params.memWords) (by omega)
  have hin : (s.sp - 1).toNat < s.params.memWords.toNat := by rw [hsp, hip]; exact hroom
  have hstep : step s = exec .push s := step_of_opcode_f1 hr hm (by omega) rfl hpush
  refine ⟨_, hstep.trans (exec_push_of_room hin), rfl, step_of_opcode_f1 hr hm ?inMemory hw ?opcode⟩
  case inMemory => exact hsp ▸ hin
  case opcode =>
    calc (s.mem.write (s.sp - 1).toNat s.cx).read (s.ip + 1).toNat
      _ = s.cx := by rw [hsp, Memory.read_write_same]
      _ = opcodeWord s.params.opcodeMap i := hcx

/-- Settles O49: each kind of step leaves memory or writes it in one way, and an address that reads differently is one
of those written. -/
theorem memoryChangesOnlyWhereWritten : Obligations.MemoryChangesOnlyWhereWritten := by
  refine ⟨fun i s t h => ?_, fun s t a h hne => ?_⟩
  · rcases exec_mem h with e | ⟨hi, -, v, e⟩
    · exact ⟨fun _ => e, fun a _ => by rw [e]⟩
    · exact ⟨fun hno => absurd hi (not_or.2 hno), fun a ha => by rw [e, Memory.read_write_other _ ha]⟩
  · rcases step_cases h with ⟨-, rfl⟩ | hr | ⟨-, rfl⟩ | ⟨hb, rfl⟩ | ⟨-, rfl⟩
    · rcases s.takeCommand_mem with e | ⟨hr, words, entry, later, hc, hfit, e⟩ <;> rw [e] at hne
      · exact absurd rfl hne
      · obtain ⟨-, ha⟩ := Memory.range_of_read_writeList_ne hne
        exact ⟨by omega, .inr (.inr ⟨hr, words, entry, later, hc, by omega⟩)⟩
    · rcases step_running_mem hr h with e | ⟨hop, hroom, v, e⟩ <;> rw [e] at hne
      · exact absurd rfl hne
      · obtain rfl := Memory.eq_of_read_write_ne hne
        exact ⟨hroom, .inl ⟨hr, rfl, hop⟩⟩
    · exact absurd (by rw [s.completeWrite_mem]) hne
    · rcases s.completeReadLine_mem with e | ⟨line, later, hl, hfit, e⟩ <;> rw [e] at hne
      · exact absurd rfl hne
      · obtain ⟨hlo, hhi⟩ := Memory.range_of_read_writeList_ne hne
        refine ⟨?_, .inr (.inl ⟨hb, line, later, hl, hlo, hhi⟩)⟩
        rcases hfit with rfl | hfit
        · exact absurd rfl hne
        · omega
    · exact absurd rfl hne

end Sys2Proof.Machine

/-! # Encoding (30_encoding.md)

What an opcode Word and a list of Words decode to, said once for each, and the obligations that follow: decoding and
encoding invert each other, and only Words outside the map are unknown. -/

namespace Sys2Proof

/-! ## What an opcode Word decodes to -/

/-- An opcode Word asks for what the catalog holds at its position in the map (30_encoding.md R76). -/
theorem decodeOpcode_eq_some {map : OpcodeMap} {op : Word} {shape : Shape} :
    decodeOpcode map op = some shape ↔ ∃ n, opcodeIndex map op = some n ∧ catalog n = some shape :=
  Option.bind_eq_some_iff

/-- A Word that decodes to a one-word instruction is that instruction's opcode Word. -/
theorem opcodeWord_of_decodeOpcode_f1 {map : OpcodeMap} {op : Word} {i : Instr}
    (h : decodeOpcode map op = some (.f1 i)) : opcodeWord map i = op ∧ i.operandWords = [] := by
  obtain ⟨n, hn, hc⟩ := decodeOpcode_eq_some.1 h
  obtain ⟨hi, hw⟩ := catalog_f1 hc
  exact ⟨opcodeWord_of hn hi, hw⟩

/-- A Word that waits for an immediate is the opcode Word of the instruction built, whatever the immediate. -/
theorem opcodeWord_of_decodeOpcode_f2 {map : OpcodeMap} {op : Word} {build : Word → Instr}
    (h : decodeOpcode map op = some (.f2 build)) (imm : Word) :
    opcodeWord map (build imm) = op ∧ (build imm).operandWords = [imm] := by
  obtain ⟨n, hn, hc⟩ := decodeOpcode_eq_some.1 h
  obtain ⟨hi, hw⟩ := catalog_f2 hc imm
  exact ⟨opcodeWord_of hn hi, hw⟩

/-- Every value of a complete map asks for an instruction: each of the 59 positions is in the catalog (30_encoding.md
R75). -/
theorem decodeOpcode_ne_none {map : OpcodeMap} (hm : OpcodeMap.complete map = true) {op : Word} (h : op ∈ map) :
    decodeOpcode map op ≠ none := by
  obtain ⟨n, hn⟩ := Option.ne_none_iff_exists'.1 (mt opcodeIndex_none.1 (not_not_intro h))
  obtain ⟨hlt, -⟩ := List.getElem?_eq_some_iff.1 (opcodeIndex_getElem? hn)
  have hlen : map.length = 59 := of_decide_eq_true hm
  simpa [decodeOpcode, hn] using catalog_some (hlen ▸ hlt)

/-! ## What a list of Words decodes to -/

/-- The two ways a decode succeeds: an F1 opcode Word alone, or an F2 opcode Word with the Word after it as its
immediate (30_encoding.md R71, R72). -/
theorem decode_ok_cases {map : OpcodeMap} {ws rest : List Word} {i : Instr} (h : decode map ws = .ok (i, rest)) :
    (∃ op, decodeOpcode map op = some (.f1 i) ∧ ws = op :: rest) ∨
    ∃ op build imm, decodeOpcode map op = some (.f2 build) ∧ i = build imm ∧ ws = op :: imm :: rest := by
  cases ws with
  | nil => simp [decode] at h
  | cons op tail =>
    rcases hop : decodeOpcode map op with _ | (j | build) <;> simp only [decode, hop] at h
    · cases h
    · cases h
      exact .inl ⟨op, hop, rfl⟩
    · cases tail with
      | nil => cases h
      | cons imm tail =>
        cases h
        exact .inr ⟨op, build, imm, hop, rfl, rfl⟩

/-- The decoder answers that an opcode is unknown only where the opcode Word asks for nothing; a missing immediate has
its own answer. -/
theorem decodeOpcode_of_unknownOpcode {map : OpcodeMap} {op o : Word} {rest : List Word}
    (h : decode map (op :: rest) = .error (.unknownOpcode o)) : decodeOpcode map op = none := by
  rcases hop : decodeOpcode map op with _ | (i | build) <;> simp only [decode, hop] at h
  · rfl
  · cases h
  · cases rest <;> cases h

/-! ## The obligations -/

/-- Settles O1: an instruction's opcode Word finds the instruction's own catalog entry, which takes its operand Words
and no more. -/
theorem decodeInvertsEncode : Obligations.DecodeInvertsEncode :=
  fun _ hm i rest => decode_encode_append hm i rest

/-- Settles O2, by the two ways a decode succeeds. -/
theorem decodedWordsAreTheEncoding : Obligations.DecodedWordsAreTheEncoding := by
  intro map _ ws i rest h
  rcases decode_ok_cases h with ⟨op, hop, rfl⟩ | ⟨op, build, imm, hop, rfl, rfl⟩
  · obtain ⟨hword, hw⟩ := opcodeWord_of_decodeOpcode_f1 hop
    rw [encode, hword, hw, List.cons_append, List.nil_append]
  · obtain ⟨hword, hw⟩ := opcodeWord_of_decodeOpcode_f2 hop imm
    rw [encode, hword, hw, List.cons_append, List.cons_append, List.nil_append]

/-- Settles O3: completeness makes every value of the map an instruction's. -/
theorem unknownOpcodeIffNotInMap : Obligations.UnknownOpcodeIffNotInMap := by
  intro map hm op rest
  constructor
  · intro h hmem
    exact decodeOpcode_ne_none hm hmem (decodeOpcode_of_unknownOpcode h)
  · exact fun h => decode_unknownOpcode h rest

/-- Settles O4, by running the decoder on the sample words. -/
theorem sampleWordsDecode : Obligations.SampleWordsDecode := by
  unfold Obligations.SampleWordsDecode
  decide

end Sys2Proof

/-! # The stack and the invariant (40_stack.md)

PUSH, POP, CALL and RET with and without room, what a step does to each part of the invariant (memory, `sp`, the
status fields, where a final or waiting core stands, the output), and the obligations that follow. -/

namespace Sys2Proof.Machine

open Sys2Proof.Claims

/-! ## PUSH, POP, CALL and RET -/

/-- A push with `sp - 1` in memory writes there and keeps the decrement (40_stack.md R100). -/
theorem State.pushWord_of_room {s : State} (h : (s.sp - 1).toNat < s.params.memWords.toNat) (v : Word) :
    s.pushWord v = .ok { s with mem := s.mem.write (s.sp - 1).toNat v, sp := s.sp - 1 } := by
  rcases s.pushWord_cases v with ⟨-, e⟩ | ⟨hout, -⟩
  · exact e
  · omega

/-- A push with `sp - 1` outside memory faults there. -/
theorem State.pushWord_of_full {s : State} (h : s.params.memWords.toNat ≤ (s.sp - 1).toNat) (v : Word) :
    s.pushWord v = .error (.outOfBounds (s.sp - 1)) := by
  rcases s.pushWord_cases v with ⟨hin, -⟩ | ⟨-, e⟩
  · omega
  · exact e

/-- A pop with `sp` in memory reads there, then increments (40_stack.md R101). -/
theorem State.popInto_of_word {s : State} (h : s.sp.toNat < s.params.memWords.toNat) (r : Reg) :
    s.popInto r = .ok { s.set r (s.mem.read s.sp.toNat) with sp := s.sp + 1 } := by
  rcases s.popInto_cases r with ⟨-, e⟩ | ⟨hout, -⟩
  · exact e
  · omega

/-- A pop with `sp` outside memory faults there. -/
theorem State.popInto_of_empty {s : State} (h : s.params.memWords.toNat ≤ s.sp.toNat) (r : Reg) :
    s.popInto r = .error (.outOfBounds s.sp) := by
  rcases s.popInto_cases r with ⟨hin, -⟩ | ⟨-, e⟩
  · omega
  · exact e

/-- PUSH without room faults (40_stack.md R100). -/
theorem exec_push_of_full {s : State} (h : s.params.memWords.toNat ≤ (s.sp - 1).toNat) :
    exec .push s = .next (s.raise (.outOfBounds (s.sp - 1))) := by
  simp only [exec, execPush, State.pushWord_of_full h, State.settle_error]

/-- POP with `sp` in memory loads `cx` from there (40_stack.md R101). -/
theorem exec_pop_of_word {s : State} (h : s.sp.toNat < s.params.memWords.toNat) :
    exec .pop s = .next { s with cx := s.mem.read s.sp.toNat, sp := s.sp + 1, ip := s.ip + 1 } := by
  simp only [exec, execPop, State.popInto_of_word h]
  rfl

/-- POP with `sp` outside memory faults (40_stack.md R101). -/
theorem exec_pop_of_empty {s : State} (h : s.params.memWords.toNat ≤ s.sp.toNat) :
    exec .pop s = .next (s.raise (.outOfBounds s.sp)) := by
  simp only [exec, execPop, State.popInto_of_empty h, State.settle_error]

/-- CALL with `sp - 1` in memory stores the return address there and goes to `dx` (45_call_ret.md R200). -/
theorem exec_call_of_room {s : State} (h : (s.sp - 1).toNat < s.params.memWords.toNat) :
    exec .call s = .next { s with mem := s.mem.write (s.sp - 1).toNat (s.ip + 1), sp := s.sp - 1, ip := s.dx } := by
  simp only [exec, execCall, State.pushWord_of_room h]
  rfl

/-- RET with `sp` in memory goes to the Word there, kept in `dx` too (45_call_ret.md R201). -/
theorem exec_ret_of_word {s : State} (h : s.sp.toNat < s.params.memWords.toNat) :
    exec .ret s = .next { s with
      dx := s.mem.read s.sp.toNat, sp := s.sp + 1, ip := s.mem.read s.sp.toNat } := by
  simp only [exec, execRet, State.popInto_of_word h]
  rfl

/-! ## What a step does to memory -/

/-- A step leaves memory, or writes Words at consecutive addresses that all exist (20_memory.md R50). -/
theorem step_mem_cases {s t : State} (h : step s = .next t) :
    t.mem = s.mem ∨ ∃ a vs, a + vs.length ≤ s.params.memWords.toNat ∧ t.mem = s.mem.writeList a vs := by
  rcases step_cases h with ⟨-, rfl⟩ | hr | ⟨-, rfl⟩ | ⟨-, rfl⟩ | ⟨-, rfl⟩
  · refine s.takeCommand_mem.imp id ?_
    rintro ⟨-, words, _, _, -, hfit, e⟩
    exact ⟨0, words, by omega, e⟩
  · refine (step_running_mem hr h).imp id ?_
    rintro ⟨-, hroom, v, e⟩
    exact ⟨(s.sp - 1).toNat, [v], hroom, e⟩
  · exact .inl s.completeWrite_mem
  · rcases s.completeReadLine_mem with e | ⟨line, _, -, rfl | hfit, e⟩
    · exact .inl e
    · exact .inl e
    · exact .inr ⟨s.dx.toNat, line, hfit, e⟩
  · exact .inl rfl

/-- Every step keeps the canonical form of memory. -/
theorem step_keeps_wf {s t : State} (hs : Memory.wf s.mem = true) (h : step s = .next t) :
    Memory.wf t.mem = true := by
  rcases step_mem_cases h with e | ⟨a, vs, -, e⟩ <;> rw [e]
  · exact hs
  · exact Memory.wf_writeList a vs hs

/-- No step lists an address at or above MEM_WORDS. -/
theorem step_keeps_below {s t : State} (hs : Memory.below s.params.memWords.toNat s.mem = true)
    (h : step s = .next t) : Memory.below s.params.memWords.toNat t.mem = true := by
  rcases step_mem_cases h with e | ⟨a, vs, hfit, e⟩ <;> rw [e]
  · exact hs
  · exact Memory.below_writeList vs hfit hs

/-! ## What a step does to `sp` -/

/-- An instruction that writes registers only leaves `sp`. -/
theorem RegistersOnly.sp {s t : State} (h : RegistersOnly s t) : t.sp = s.sp := by
  unfold RegistersOnly at h
  rw [h]

/-- Syscall 0 leaves `sp`. -/
@[simp] theorem sysWrite_sp (s : State) : (sysWrite s).sp = s.sp := by
  rcases sysWrite_cases s with ⟨_, -, e⟩ | ⟨_, _, -, e⟩ <;> rw [e]

/-- The end of a write leaves `sp`. -/
@[simp] theorem State.completeWrite_sp (s : State) : s.completeWrite.sp = s.sp := by
  rcases s.completeWrite_cases with ⟨-, e⟩ | ⟨_, -, e⟩ <;> rw [e]

/-- The end of a read leaves `sp`. -/
@[simp] theorem State.completeReadLine_sp (s : State) : s.completeReadLine.sp = s.sp := by
  rcases s.completeReadLine_cases with ⟨-, e⟩ | ⟨_, _, -, -, -, e⟩ | ⟨_, _, -, -, e⟩ <;> rw [e]

/-- A host transaction leaves `sp`, or sets it to MEM_WORDS as `start` does (70_reset_and_hazards.md R331). -/
theorem State.takeCommand_sp (s : State) :
    s.takeCommand.sp = s.sp ∨ s.takeCommand.sp = s.params.memWords := by
  rcases s.takeCommand_cases with ⟨-, e⟩ | ⟨c, later, -, e | ⟨-, _, _, -, -, e⟩ | ⟨-, _, _, -, -, e⟩ | ⟨-, -, e⟩⟩
  case inr.inr.inr.inr => exact .inr (by rw [e])
  all_goals exact .inl (by rw [e])

/-- A `start` in LOADED sets the three pointers and the core runs (70_reset_and_hazards.md R331). -/
theorem State.takeCommand_of_start {s : State} {later : List Command} (hl : s.runState = .loaded)
    (hc : s.commands = .start :: later) :
    s.takeCommand = { s with
      commands := later, sp := s.params.memWords, fp := s.params.memWords,
      lp := s.params.memWords - 1, runState := .running } := by
  simp only [State.takeCommand, hc, State.command, State.start, hl, ne_eq, not_true_eq_false, if_false]

/-- An instruction leaves `sp`, lowers it to an address in memory, or raises it from one (40_stack.md R100 to R102). -/
theorem exec_sp {i : Instr} {s t : State} (h : exec i s = .next t) :
    t.sp = s.sp ∨ ((s.sp - 1).toNat < s.params.memWords.toNat ∧ t.sp = s.sp - 1) ∨
    (s.sp.toNat < s.params.memWords.toNat ∧ t.sp = s.sp + 1) := by
  rcases exec_cases h with ⟨-, hsys⟩ | ⟨hroom, hpush⟩ | ⟨hword, hpop⟩ | ⟨c, -, rfl⟩ | ⟨-, hregs, -⟩
  · left
    rcases hsys with ⟨-, rfl⟩ | ⟨-, rfl⟩ | ⟨-, rfl⟩ | rfl
    · exact sysWrite_sp s
    all_goals rfl
  · refine .inr (.inl ⟨hroom, ?_⟩)
    rcases hpush with ⟨-, rfl⟩ | ⟨-, rfl⟩ <;> rfl
  · refine .inr (.inr ⟨hword, ?_⟩)
    rcases hpop with ⟨-, rfl⟩ | ⟨-, rfl⟩ <;> rfl
  · exact .inl rfl
  · exact .inl hregs.sp

/-- No instruction takes `sp` above MEM_WORDS (40_stack.md R102). -/
theorem exec_keeps_spRange {i : Instr} {s t : State} (hs : s.sp.toNat ≤ s.params.memWords.toNat)
    (h : exec i s = .next t) : t.sp.toNat ≤ s.params.memWords.toNat := by
  rcases exec_sp h with e | ⟨hroom, e⟩ | ⟨hword, e⟩ <;> rw [e]
  · exact hs
  · exact hroom.le
  · rw [toNat_add_one_of_lt hword]
    exact hword

/-- No step takes `sp` above MEM_WORDS (40_stack.md R102). -/
theorem step_keeps_spRange {s t : State} (hs : s.sp.toNat ≤ s.params.memWords.toNat) (h : step s = .next t) :
    t.sp.toNat ≤ s.params.memWords.toNat := by
  rcases step_cases h with ⟨-, rfl⟩ | hr | ⟨-, rfl⟩ | ⟨-, rfl⟩ | ⟨-, rfl⟩
  · rcases s.takeCommand_sp with e | e <;> rw [e]
    exact hs
  · rcases step_running_cases hr h with ⟨-, rfl⟩ | ⟨-, i, -, he⟩ | ⟨-, c, -, rfl⟩
    · exact hs
    · exact exec_keeps_spRange hs he
    · exact hs
  · rwa [s.completeWrite_sp]
  · rwa [s.completeReadLine_sp]
  · exact hs

/-! ## What a step does to the status fields -/

/-- An instruction that writes registers only leaves RUN_STATE and FAULT_CAUSE. -/
theorem RegistersOnly.status {s t : State} (h : RegistersOnly s t) :
    t.runState = s.runState ∧ t.faultCause = s.faultCause := by
  unfold RegistersOnly at h
  exact ⟨by rw [h], by rw [h]⟩

/-- What an instruction raises is a fault. -/
theorem RaisedBy.ne_none {i : Instr} {s : State} {c : FaultCause} (h : RaisedBy i s c) : c ≠ .none := by
  rcases h with ⟨rfl, -⟩ | ⟨rfl, -⟩ | ⟨rfl, -⟩ | ⟨rfl, -⟩ | ⟨rfl, -⟩ <;> nofun

/-- What a fetch raises is a fault. -/
theorem State.fetch_error_ne_none {s : State} {c : FaultCause} (h : s.fetch = .error c) : c ≠ .none := by
  rcases State.fetch_error h with ⟨_, rfl⟩ | ⟨_, rfl⟩ <;> nofun

/-- What ends the character loop early is a fault. -/
theorem writeChars_ne_none (limit : Nat) (m : Memory) (n a : Nat) : (writeChars limit m n a).2 ≠ some .none := by
  obtain ⟨k, -, -, -, ⟨-, e⟩ | ⟨-, -, e⟩ | ⟨-, -, -, e⟩⟩ := writeChars_spec limit m n a <;> rw [e] <;> nofun

/-- What an instruction does to the status fields: it leaves them, takes a fault, or is a SYSCALL that blocks where it
stands (46_syscall.md R212, R213; 60_exceptions.md R305). -/
theorem exec_status {i : Instr} {s t : State} (h : exec i s = .next t) :
    (t.runState = s.runState ∧ t.faultCause = s.faultCause) ∨ (t.runState = .faulted ∧ t.faultCause ≠ .none) ∨
    (i = .syscall ∧ s.ax = 0 ∧ ∃ dx out,
      t = { s with dx := dx, cx := 0, output := out, runState := .blockedOut }) ∨
    (i = .syscall ∧ s.ax = 1 ∧ t = { s with runState := .blockedIn }) := by
  rcases exec_cases h with ⟨rfl, hsys⟩ | ⟨-, hpush⟩ | ⟨-, hpop⟩ | ⟨c, hc, rfl⟩ | ⟨-, hregs, -⟩
  · rcases hsys with ⟨hax, rfl⟩ | ⟨hax, rfl⟩ | ⟨-, rfl⟩ | rfl
    · rcases sysWrite_cases s with ⟨_, -, e⟩ | ⟨_, c, hw, e⟩
      · exact .inr (.inr (.inl ⟨rfl, hax, _, _, e⟩))
      · have hc : c ≠ .none := by
          rintro rfl
          exact writeChars_ne_none _ _ _ _ (congrArg Prod.snd hw)
        exact .inr (.inl (by rw [e]; exact ⟨rfl, hc⟩))
    · exact .inr (.inr (.inr ⟨rfl, hax, rfl⟩))
    · exact .inl ⟨rfl, rfl⟩
    · exact .inr (.inl ⟨rfl, nofun⟩)
  · left
    rcases hpush with ⟨-, rfl⟩ | ⟨-, rfl⟩ <;> exact ⟨rfl, rfl⟩
  · left
    rcases hpop with ⟨-, rfl⟩ | ⟨-, rfl⟩ <;> exact ⟨rfl, rfl⟩
  · exact .inr (.inl ⟨rfl, hc.ne_none⟩)
  · exact .inl hregs.status

/-- The two status fields after an operation on a core that had not faulted: a fault with its cause, or no fault and
the cause left as it was. -/
def RecordsFault (s t : State) : Prop :=
  (t.runState = .faulted ∧ t.faultCause ≠ .none) ∨ (t.runState ≠ .faulted ∧ t.faultCause = s.faultCause)

/-- Where the status fields agree before, they agree after. -/
theorem RecordsFault.statusOk {s t : State} (h : RecordsFault s t) (hne : s.runState ≠ .faulted) (hs : s.statusOk) :
    t.statusOk := by
  rcases h with ⟨hr, hc⟩ | ⟨hr, hc⟩
  · exact iff_of_false hc (not_not_intro hr)
  · exact iff_of_true (hc.trans (hs.2 hne)) hr

/-- A transaction of the host faults with IMAGE_TOO_LARGE or not at all (60_exceptions.md R310). -/
theorem State.takeCommand_recordsFault {s : State} (hne : s.runState ≠ .faulted) : RecordsFault s s.takeCommand := by
  rcases s.takeCommand_cases with ⟨-, e⟩ | ⟨c, later, -, e | ⟨-, _, _, -, -, e⟩ | ⟨-, _, _, -, -, e⟩ | ⟨-, -, e⟩⟩ <;>
    rw [e]
  · exact .inr ⟨hne, rfl⟩
  · exact .inr ⟨hne, rfl⟩
  · exact .inl ⟨rfl, nofun⟩
  · exact .inr ⟨nofun, rfl⟩
  · exact .inr ⟨nofun, rfl⟩

/-- A running step faults only with a cause. -/
theorem step_running_recordsFault {s t : State} (hr : s.runState = .running) (h : step s = .next t) :
    RecordsFault s t := by
  rcases step_running_cases hr h with ⟨-, rfl⟩ | ⟨-, i, -, he⟩ | ⟨-, c, hc, rfl⟩
  · exact .inr ⟨nofun, rfl⟩
  · rcases exec_status he with ⟨e, ec⟩ | hfault | ⟨-, -, _, _, rfl⟩ | ⟨-, -, rfl⟩
    · exact .inr ⟨by rw [e, hr]; nofun, ec⟩
    · exact .inl hfault
    · exact .inr ⟨nofun, rfl⟩
    · exact .inr ⟨nofun, rfl⟩
  · exact .inl ⟨rfl, State.fetch_error_ne_none hc⟩

/-- The end of a write never faults (46_syscall.md R216). -/
theorem State.completeWrite_recordsFault {s : State} (hne : s.runState ≠ .faulted) :
    RecordsFault s s.completeWrite := by
  rcases s.completeWrite_cases with ⟨-, e⟩ | ⟨_, -, e⟩ <;> rw [e]
  · exact .inr ⟨hne, rfl⟩
  · exact .inr ⟨nofun, rfl⟩

/-- The end of a read faults with OUT_OF_BOUNDS or not at all (46_syscall.md R213). -/
theorem State.completeReadLine_recordsFault {s : State} (hne : s.runState ≠ .faulted) :
    RecordsFault s s.completeReadLine := by
  rcases s.completeReadLine_cases with ⟨-, e⟩ | ⟨_, _, -, -, -, e⟩ | ⟨_, _, -, -, e⟩ <;> rw [e]
  · exact .inr ⟨hne, rfl⟩
  · exact .inl ⟨rfl, nofun⟩
  · exact .inr ⟨nofun, rfl⟩

/-- Every step keeps FAULT_CAUSE set exactly in FAULTED (10_state.md R28). -/
theorem step_keeps_statusOk {s t : State} (hs : s.statusOk) (h : step s = .next t) : t.statusOk := by
  rcases step_cases h with ⟨hw, rfl⟩ | hr | ⟨hb, rfl⟩ | ⟨hb, rfl⟩ | ⟨-, rfl⟩
  · have hne : s.runState ≠ .faulted := by rcases hw with e | e <;> rw [e] <;> nofun
    exact (State.takeCommand_recordsFault hne).statusOk hne hs
  · exact (step_running_recordsFault hr h).statusOk (by rw [hr]; nofun) hs
  · have hne : s.runState ≠ .faulted := by rw [hb]; nofun
    exact (State.completeWrite_recordsFault hne).statusOk hne hs
  · have hne : s.runState ≠ .faulted := by rw [hb]; nofun
    exact (State.completeReadLine_recordsFault hne).statusOk hne hs
  · exact hs

/-! ## Where a final or waiting core stands -/

/-- A core that neither halted nor waits inside a syscall may stand anywhere. -/
theorem State.phaseOk_of_free {s : State}
    (h : s.runState = .reset ∨ s.runState = .loaded ∨ s.runState = .running ∨ s.runState = .faulted) : s.phaseOk := by
  rcases h with e | e | e | e <;> simp [State.phaseOk, e]

/-- A host transaction neither halts nor blocks the core. -/
theorem State.takeCommand_phaseOk {s : State} (hw : s.runState = .reset ∨ s.runState = .loaded) :
    s.takeCommand.phaseOk := by
  apply State.phaseOk_of_free
  rcases s.takeCommand_cases with ⟨-, e⟩ | ⟨c, later, -, e | ⟨-, _, _, -, -, e⟩ | ⟨-, _, _, -, -, e⟩ | ⟨-, -, e⟩⟩ <;>
    rw [e]
  · exact hw.imp id .inl
  · exact hw.imp id .inl
  · exact .inr (.inr (.inr rfl))
  · exact .inr (.inl rfl)
  · exact .inr (.inr (.inl rfl))

/-- A running core halts only at the terminal check and blocks only at the SYSCALL it fetched (10_state.md R32,
46_syscall.md R212, R213). -/
theorem step_running_phaseOk {s t : State} (hr : s.runState = .running) (h : step s = .next t) : t.phaseOk := by
  rcases step_running_cases hr h with ⟨hend, rfl⟩ | ⟨hip, i, hf, he⟩ | ⟨-, c, -, rfl⟩
  · exact ⟨fun _ => ⟨hend, rfl⟩, nofun, nofun⟩
  · have hat : i = .syscall → s.atSyscall := by
      rintro rfl
      exact ⟨hip, State.fetch_opcode hf⟩
    rcases exec_status he with ⟨e, -⟩ | ⟨e, -⟩ | ⟨hi, hax, _, _, rfl⟩ | ⟨hi, hax, rfl⟩
    · exact State.phaseOk_of_free (.inr (.inr (.inl (e.trans hr))))
    · exact State.phaseOk_of_free (.inr (.inr (.inr e)))
    · exact ⟨nofun, fun _ => ⟨hat hi, hax, rfl⟩, nofun⟩
    · exact ⟨nofun, nofun, fun _ => ⟨hat hi, hax⟩⟩
  · exact State.phaseOk_of_free (.inr (.inr (.inr rfl)))

/-- Every step keeps a final or waiting core where it may stand. -/
theorem step_keeps_phaseOk {s t : State} (hs : s.phaseOk) (h : step s = .next t) : t.phaseOk := by
  rcases step_cases h with ⟨hw, rfl⟩ | hr | ⟨-, rfl⟩ | ⟨-, rfl⟩ | ⟨-, rfl⟩
  · exact State.takeCommand_phaseOk hw
  · exact step_running_phaseOk hr h
  · rcases s.completeWrite_cases with ⟨-, e⟩ | ⟨_, -, e⟩ <;> rw [e]
    · exact hs
    · exact State.phaseOk_of_free (.inr (.inr (.inl rfl)))
  · rcases s.completeReadLine_cases with ⟨-, e⟩ | ⟨_, _, -, -, -, e⟩ | ⟨_, _, -, -, e⟩ <;> rw [e]
    · exact hs
    · exact State.phaseOk_of_free (.inr (.inr (.inr rfl)))
    · exact State.phaseOk_of_free (.inr (.inr (.inl rfl)))
  · exact hs

/-! ## What a step outputs -/

/-- An instruction that writes registers only outputs nothing. -/
theorem RegistersOnly.output {s t : State} (h : RegistersOnly s t) : t.output = s.output := by
  unfold RegistersOnly at h
  rw [h]

/-- The character loop appends Unicode scalar values only (46_syscall.md R212). -/
theorem writeChars_output_ok (limit : Nat) (m : Memory) (n a : Nat) :
    (writeChars limit m n a).1.all OutEvent.ok = true := by
  obtain ⟨k, -, hout, hgood, -⟩ := writeChars_spec limit m n a
  rw [hout, List.all_map, List.all_eq_true]
  intro j hj
  exact (hgood j (List.mem_range.1 hj)).2

/-- Syscall 0 outputs characters and flushes only, whether it faults or not. -/
theorem sysWrite_output_ok {s : State} (hs : s.output.all OutEvent.ok = true) :
    (sysWrite s).output.all OutEvent.ok = true := by
  have hchars := writeChars_output_ok s.params.memWords.toNat s.mem s.cx.toNat s.dx.toNat
  rcases sysWrite_cases s with ⟨chars, hw, e⟩ | ⟨chars, c, hw, e⟩ <;> rw [hw] at hchars <;> rw [e]
  · simp [List.all_append, hs, hchars, OutEvent.ok]
  · simp [List.all_append, hs, hchars]

/-- Only SYSCALL 0 outputs (46_syscall.md R212). -/
theorem exec_output {i : Instr} {s t : State} (h : exec i s = .next t) :
    t.output = s.output ∨ (i = .syscall ∧ s.ax = 0 ∧ t = sysWrite s) := by
  rcases exec_cases h with ⟨rfl, hsys⟩ | ⟨-, ⟨-, rfl⟩ | ⟨-, rfl⟩⟩ | ⟨-, ⟨-, rfl⟩ | ⟨-, rfl⟩⟩ | ⟨c, -, rfl⟩ | ⟨-, hregs, -⟩
  · rcases hsys with ⟨hax, rfl⟩ | ⟨-, rfl⟩ | ⟨-, rfl⟩ | rfl
    · exact .inr ⟨rfl, hax, rfl⟩
    all_goals exact .inl rfl
  case inr.inr.inr.inr => exact .inl hregs.output
  all_goals exact .inl rfl

/-- A host transaction outputs nothing. -/
@[simp] theorem State.takeCommand_output (s : State) : s.takeCommand.output = s.output := by
  rcases s.takeCommand_cases with ⟨-, e⟩ | ⟨c, later, -, e | ⟨-, _, _, -, -, e⟩ | ⟨-, _, _, -, -, e⟩ | ⟨-, -, e⟩⟩ <;>
    rw [e]

/-- The end of a write outputs nothing: the flush was recorded when the core blocked. -/
@[simp] theorem State.completeWrite_output (s : State) : s.completeWrite.output = s.output := by
  rcases s.completeWrite_cases with ⟨-, e⟩ | ⟨_, -, e⟩ <;> rw [e]

/-- The end of a read outputs nothing. -/
@[simp] theorem State.completeReadLine_output (s : State) : s.completeReadLine.output = s.output := by
  rcases s.completeReadLine_cases with ⟨-, e⟩ | ⟨_, _, -, -, -, e⟩ | ⟨_, _, -, -, e⟩ <;> rw [e]

/-- A step that outputs is a SYSCALL 0 (10_state.md R30, 46_syscall.md R212). -/
theorem step_output {s t : State} (h : step s = .next t) :
    t.output = s.output ∨ (s.runState = .running ∧ s.ax = 0 ∧ t = sysWrite s) := by
  rcases step_cases h with ⟨-, rfl⟩ | hr | ⟨-, rfl⟩ | ⟨-, rfl⟩ | ⟨-, rfl⟩
  · exact .inl s.takeCommand_output
  · rcases step_running_cases hr h with ⟨-, rfl⟩ | ⟨-, i, -, he⟩ | ⟨-, c, -, rfl⟩
    · exact .inl rfl
    · exact (exec_output he).imp id fun ⟨_, hwrite⟩ => ⟨hr, hwrite⟩
    · exact .inl rfl
  · exact .inl s.completeWrite_output
  · exact .inl s.completeReadLine_output
  · exact .inl rfl

/-- No step outputs a Word that is not a Unicode scalar value. -/
theorem step_keeps_output_ok {s t : State} (hs : s.output.all OutEvent.ok = true) (h : step s = .next t) :
    t.output.all OutEvent.ok = true := by
  rcases step_output h with e | ⟨-, -, rfl⟩
  · rwa [e]
  · exact sysWrite_output_ok hs

/-! ## The obligations -/

/-- Settles O59: each part of the invariant is kept on its own; the parameters, which bound memory and `sp`, by O52. -/
theorem stepKeepsTheInvariant : Obligations.StepKeepsTheInvariant := by
  intro s t hs h
  obtain ⟨hparams, -⟩ := parametersAndReservedPointersStay s t h
  exact {
    params := hparams ▸ hs.params
    memWf := step_keeps_wf hs.memWf h
    memBelow := hparams ▸ step_keeps_below hs.memBelow h
    spRange := hparams ▸ step_keeps_spRange hs.spRange h
    status := step_keeps_statusOk hs.status h
    phase := step_keeps_phaseOk hs.phase h
    output := step_keeps_output_ok hs.output h }

/-- Settles O15: the second instruction reads the address the first one wrote, whatever the popped register held. -/
theorem popUndoesPushAndRetUndoesCall : Obligations.PopUndoesPushAndRetUndoesCall := by
  intro s hroom junk
  refine ⟨⟨_, exec_push_of_room hroom, ?pop⟩, ⟨_, exec_call_of_room hroom, rfl, ?ret⟩⟩
  case pop =>
    rw [exec_pop_of_word hroom]
    simp only [Memory.read_write_same, BitVec.sub_add_cancel, BitVec.add_assoc]
    rfl
  case ret =>
    rw [exec_ret_of_word hroom]
    simp only [Memory.read_write_same, BitVec.sub_add_cancel]

/-- Settles O16: `start` by its own equation, and the range by `step_keeps_spRange`. -/
theorem stackPointerStaysInRange : Obligations.StackPointerStaysInRange := by
  refine ⟨fun s t hl hc h => ?_, fun s t hs h => ?_⟩
  · obtain ⟨later, hc⟩ := List.head?_eq_some_iff.1 hc
    rw [step, hl, State.takeCommand_of_start hl hc] at h
    cases h
    rfl
  · obtain ⟨hparams, -⟩ := parametersAndReservedPointersStay s t h
    exact hparams ▸ step_keeps_spRange hs h

/-- Settles O11, with and without room. -/
theorem pushStoresBelowSp : Obligations.PushStoresBelowSp := by
  refine ⟨rfl, fun s => ?_⟩
  split
  · next hroom => exact ⟨_, exec_push_of_room hroom, rfl, fun a => Memory.read_write _ _ _ _⟩
  · next hfull => exact exec_push_of_full (not_lt.1 hfull)

/-- Settles O12, with and without a Word to pop. -/
theorem popLoadsFromSp : Obligations.PopLoadsFromSp := by
  refine ⟨rfl, fun s => ?_⟩
  split
  · next hword => exact exec_pop_of_word hword
  · next hempty => exact exec_pop_of_empty (not_lt.1 hempty)

/-- Settles O58: memory and the output history are empty, `sp` is MEM_WORDS, and the core waits for `load`. -/
theorem invariantHoldsAtPowerUp : Obligations.InvariantHoldsAtPowerUp where
  params := by decide
  memWf := rfl
  memBelow := rfl
  spRange := le_rfl
  status := iff_of_true rfl nofun
  phase := State.phaseOk_of_free (.inl rfl)
  output := rfl

end Sys2Proof.Machine

/-! # Integer arithmetic (41_integer.md)

A Word represents every integer that `trunc_W` reduces to it, so its unsigned and its signed reading among them; the
instructions of R110 to R115 compute on any representatives. DIV is the one instruction here that can fault. -/

namespace Sys2Proof.Machine

open Sys2Proof.Claims

/-! ## The integers a Word represents -/

/-- `w` is `trunc_W` of the integer `v` (00_scope.md R8). -/
def Represents (w : Word) (v : Int) : Prop := truncW v = w

/-- The SignedWord view is the two's-complement reading (00_scope.md R9). -/
theorem sw_eq_toInt (w : Word) : sw w = w.toInt := by
  unfold sw
  split
  · next hlow => exact (BitVec.toInt_eq_toNat_of_lt (by omega)).symm
  · next hhigh => rw [BitVec.toInt_eq_toNat_cond, if_neg (by omega)]; rfl

/-- The remainder taken into the signed range is the balanced one. -/
theorem wrapSigned_eq_bmod (v : Int) : wrapSigned v = v.bmod (2 ^ 64) := by
  rw [wrapSigned, Int.bmod_eq_emod]
  split <;> omega

/-- A Word represents its unsigned reading. -/
theorem represents_toNat (w : Word) : Represents w w.toNat := by
  rw [Represents, truncW, BitVec.ofInt_natCast, BitVec.ofNat_toNat, BitVec.setWidth_eq]

/-- A Word represents its signed reading too (41_integer.md R117). -/
theorem represents_sw (w : Word) : Represents w (sw w) := by
  rw [Represents, truncW, sw_eq_toInt, BitVec.ofInt_toInt]

/-- The minuend of NEG (41_integer.md R112). -/
theorem represents_zero : Represents 0 0 := rfl

/-- What INC adds and DEC subtracts (41_integer.md R110, R111). -/
theorem represents_one : Represents 1 1 := rfl

/-- The sum of two Words represents the sum of any integers they represent. -/
theorem Represents.add {x y : Word} {a b : Int} (hx : Represents x a) (hy : Represents y b) :
    Represents (x + y) (a + b) := by
  subst hx hy
  exact BitVec.ofInt_add a b

/-- The product of two Words represents the product of any integers they represent. -/
theorem Represents.mul {x y : Word} {a b : Int} (hx : Represents x a) (hy : Represents y b) :
    Represents (x * y) (a * b) := by
  subst hx hy
  exact BitVec.ofInt_mul a b

/-- The negation of a Word represents the negation of any integer it represents. -/
theorem Represents.neg {x : Word} {a : Int} (hx : Represents x a) : Represents (-x) (-a) := by
  subst hx
  exact BitVec.ofInt_neg

/-- The difference of two Words represents the difference of any integers they represent. -/
theorem Represents.sub {x y : Word} {a b : Int} (hx : Represents x a) (hy : Represents y b) :
    Represents (x - y) (a - b) := by
  rw [BitVec.sub_eq_add_neg, Int.sub_eq_add_neg]
  exact hx.add hy.neg

/-- The unsigned reading is the remainder modulo 2^64 of any integer represented. -/
theorem Represents.toNat_eq {w : Word} {v : Int} (h : Represents w v) : (w.toNat : Int) = v % 2 ^ 64 := by
  subst h
  rw [truncW, BitVec.toNat_ofInt]
  omega

/-- The signed reading is the wrapped value of any integer represented. -/
theorem Represents.sw_eq {w : Word} {v : Int} (h : Represents w v) : sw w = wrapSigned v := by
  subst h
  rw [sw_eq_toInt, truncW, BitVec.toInt_ofInt, wrapSigned_eq_bmod]

/-! ## An instruction that writes `ax` -/

/-- Setting `ax` and advancing is all that `writesAx` allows. -/
theorem writesAx_of_exec {i : Instr} {s : State} {w : Word} {result : Word → Prop}
    (h : exec i s = .next (s.set .ax w).advance) (hw : result w) : writesAx i s result :=
  ⟨_, h, hw, rfl⟩

/-! ## DIV -/

/-- DIV writes the quotient and the remainder (41_integer.md R116). -/
theorem exec_div_of_ok {s : State} {q r : Word} (h : divide s.params.defectMode s.ax s.bx = .ok (q, r)) :
    exec .div s = .next { s with ax := q, bx := r, ip := s.ip + 1 } := by
  simp only [exec, execDiv, h]
  rfl

/-- DIV takes the fault of its division (60_exceptions.md R306). -/
theorem exec_div_of_error {s : State} {c : FaultCause} (h : divide s.params.defectMode s.ax s.bx = .error c) :
    exec .div s = .next (s.raise c) := by
  simp only [exec, execDiv, h, State.settle_error]

/-- A Word's remainder is 0 where the unsigned one is. -/
theorem umod_eq_zero_iff {a d : Word} : a % d = 0 ↔ a.toNat % d.toNat = 0 := by
  rw [← BitVec.toNat_inj, BitVec.toNat_umod]
  rfl

/-- What the divisor times the quotient leaves of the dividend is the remainder (41_integer.md R116, CORRECTED). -/
theorem sub_udiv_mul (a d : Word) : a - a / d * d = a % d := by
  rw [BitVec.sub_eq_iff_eq_add]
  apply BitVec.eq_of_toNat_eq
  rw [BitVec.toNat_add, BitVec.toNat_umod, BitVec.toNat_mul, BitVec.toNat_udiv, Nat.add_mod_mod, Nat.mul_comm,
    Nat.mod_add_div, Nat.mod_eq_of_lt a.isLt]

/-! ## The obligations -/

/-- Settles O19: `ax` and `bx` represent their signed readings. -/
theorem integerResultsAreTwosComplement : Obligations.IntegerResultsAreTwosComplement := by
  intro s
  have ha := represents_sw s.ax
  have hb := represents_sw s.bx
  refine ⟨writesAx_of_exec rfl (ha.add represents_one).sw_eq, writesAx_of_exec rfl (ha.sub represents_one).sw_eq,
    writesAx_of_exec rfl ?neg, writesAx_of_exec rfl (ha.add hb).sw_eq, writesAx_of_exec rfl (ha.sub hb).sw_eq,
    writesAx_of_exec rfl (ha.mul hb).sw_eq⟩
  case neg =>
    rw [← Int.zero_sub]
    exact (represents_zero.sub ha).sw_eq

/-- Settles O20, by the four ways a division ends. -/
theorem divFollowsDefectMode : Obligations.DivFollowsDefectMode := by
  refine ⟨rfl, fun s => ?_⟩
  rcases divide_cases s.params.defectMode s.ax s.bx with ⟨hd, e⟩ | ⟨hd, hmode, e⟩ | ⟨hd, hmode, hr, e⟩ |
    ⟨hd, hmode, hr, e⟩
  · rw [if_pos hd]
    exact exec_div_of_error e
  · rw [if_neg hd, hmode]
    refine ⟨_, exec_div_of_ok e, rfl, BitVec.toNat_udiv, ?_⟩
    rw [sub_udiv_mul]
    exact BitVec.toNat_umod
  · rw [if_neg hd, hmode]
    dsimp only
    rw [if_pos (umod_eq_zero_iff.1 hr)]
    exact exec_div_of_error e
  · rw [if_neg hd, hmode]
    dsimp only
    rw [if_neg (mt umod_eq_zero_iff.2 hr)]
    refine ⟨_, exec_div_of_ok e, rfl, BitVec.toNat_umod, ?_⟩
    rw [BitVec.toNat_udiv, BitVec.toNat_umod]

/-- Settles O17: `ax` represents its unsigned reading. -/
theorem integerUnaryResults : Obligations.IntegerUnaryResults := by
  refine ⟨⟨rfl, fun s => writesAx_of_exec rfl ?inc⟩, ⟨rfl, fun s => writesAx_of_exec rfl ?dec⟩,
    ⟨rfl, fun s => writesAx_of_exec rfl ?neg⟩⟩
  case inc => exact ((represents_toNat s.ax).add represents_one).toNat_eq
  case dec => exact ((represents_toNat s.ax).sub represents_one).toNat_eq
  case neg => exact (represents_zero.sub (represents_toNat s.ax)).toNat_eq

/-- Settles O18: `ax` and `bx` represent their unsigned readings. -/
theorem integerBinaryResults : Obligations.IntegerBinaryResults := by
  refine ⟨⟨rfl, fun s => writesAx_of_exec rfl ?add⟩, ⟨rfl, fun s => writesAx_of_exec rfl ?sub⟩,
    ⟨rfl, fun s => writesAx_of_exec rfl ?mul⟩⟩
  case add => exact ((represents_toNat s.ax).add (represents_toNat s.bx)).toNat_eq
  case sub => exact ((represents_toNat s.ax).sub (represents_toNat s.bx)).toNat_eq
  case mul => exact ((represents_toNat s.ax).mul (represents_toNat s.bx)).toNat_eq

end Sys2Proof.Machine

/-! # Float arithmetic (42_float.md)

FNEG flips the sign bit. FADD, FSUB, FMUL and FDIV each write the result of one operation on the Real views of `ax` and
`bx`; what they write follows from the value of that operation, and rounding is `roundMag_nearest`. -/

namespace Sys2Proof.Machine

open Sys2Proof.Claims

/-! ## The sign bit -/

/-- The mask of FNEG inverts bit 63 and keeps every other bit. -/
theorem getLsbD_xor_signBit (v : Word) (k : Nat) :
    (v ^^^ 0x8000000000000000).getLsbD k = (v.getLsbD k ^^ decide (k = 63)) := by
  have htwo : (0x8000000000000000 : Word) = BitVec.twoPow 64 63 := rfl
  rw [htwo, BitVec.getLsbD_xor, BitVec.getLsbD_twoPow]
  simp [eq_comm]

/-- Flipping the sign bit negates the datum, a NaN's included (42_float.md R131). -/
theorem real_xor_signBit (v : Word) : real (v ^^^ 0x8000000000000000) = negReal (real v) := by
  have hsign : (v ^^^ 0x8000000000000000).msb = !v.msb := by
    simp only [BitVec.msb_eq_getLsbD_last, getLsbD_xor_signBit]
    exact Bool.xor_true _
  have hexponent : (v ^^^ 0x8000000000000000).extractLsb' 52 11 = v.extractLsb' 52 11 :=
    BitVec.extractLsb'_xor.trans BitVec.xor_zero
  have hfraction : (v ^^^ 0x8000000000000000).extractLsb' 0 52 = v.extractLsb' 0 52 :=
    BitVec.extractLsb'_xor.trans BitVec.xor_zero
  simp only [real, hsign, hexponent, hfraction]
  split_ifs <;> rfl

@[simp] theorem isNaN_negReal (x : Real64) : isNaN (negReal x) = isNaN x := by
  cases x <;> rfl

/-- A negated datum is an infinity exactly where the datum is the opposite one. -/
@[simp] theorem negReal_eq_inf (x : Real64) (a : Bool) : negReal x = .inf (!a) ↔ x = .inf a := by
  cases x <;> simp [negReal]

theorem signedMag_not (neg : Bool) (mag : Nat) : signedMag (!neg) mag = -signedMag neg mag := by
  cases neg <;> simp [signedMag]

/-! ## NaN results -/

/-- A draw has the bits that make a NaN quiet, whatever the free value (00_scope.md R5). -/
theorem isQuietNaN_nanDraw (n : Nat) : isQuietNaN (nanDraw n) = true := by
  rw [isQuietNaN, decide_eq_true_iff, nanDraw]
  ext k
  rw [BitVec.getElem_and, BitVec.getElem_or, Bool.and_eq_right_iff_imp]
  exact Bool.or_inr

/-- A quiet NaN has an exponent field of ones and a nonzero fraction, so it is a NaN. -/
theorem isNaN_of_isQuietNaN {w : Word} (h : isQuietNaN w = true) : isNaN (real w) = true := by
  have hmask : w &&& 0x7FF8000000000000 = 0x7FF8000000000000 := of_decide_eq_true h
  have hexponent : w.extractLsb' 52 11 = BitVec.allOnes 11 :=
    calc w.extractLsb' 52 11
      _ = w.extractLsb' 52 11 &&& BitVec.allOnes 11 := BitVec.and_allOnes.symm
      _ = (w &&& 0x7FF8000000000000).extractLsb' 52 11 := by rw [BitVec.extractLsb'_and]; rfl
      _ = BitVec.allOnes 11 := by rw [hmask]; rfl
  have hquiet : w.getLsbD 51 = true := by
    rw [← Bool.and_true (w.getLsbD 51)]
    exact (BitVec.getLsbD_and ..).symm.trans (congrArg (BitVec.getLsbD · 51) hmask)
  have hfraction : w.extractLsb' 0 52 ≠ 0 := by
    intro hzero
    have hbit : (w.extractLsb' 0 52).getLsbD 51 = true := by rw [BitVec.getLsbD_extractLsb']; exact hquiet
    rw [hzero] at hbit
    cases hbit
  rw [real, hexponent, if_pos (show (BitVec.allOnes 11).toNat = 2047 from rfl), if_neg hfraction]
  rfl

/-! ## Results that are numbers -/

/-- A code up to that of infinity is no NaN's. -/
theorem isNaN_real_packSign (neg : Bool) {x : Nat} (hx : x ≤ infBits) : isNaN (real (packSign neg x)) = false := by
  rcases hx.lt_or_eq with hlt | rfl
  · rw [real_packSign_finite neg hlt]
    rfl
  · rw [real_packSign_inf]
    rfl

/-- A code of zero is the zero of that sign. -/
theorem real_packSign_zero (neg : Bool) : real (packSign neg 0) = .finite neg 0 :=
  real_packSign_finite neg (by decide)

theorem unitsPerOne_pos : 0 < unitsPerOne := by
  unfold unitsPerOne
  positivity

theorem roundMag_le_infBits (num den : Nat) : roundMag num den ≤ infBits := min_le_right _ _

/-- A rounded magnitude with a sign is the datum that R130 asks for. -/
theorem nearestEven_packSign_roundMag (neg : Bool) (num : Nat) {den : Nat} (hd : 0 < den) :
    nearestEven neg num den (packSign neg (roundMag num den)) := by
  rcases roundMag_nearest num hd with ⟨hover, hinf⟩ | ⟨hunder, hfin, hnear⟩
  · left
    exact ⟨hover, by rw [hinf, real_packSign_inf]⟩
  · right
    refine ⟨hunder, _, real_packSign_finite neg hfin, fun v k hv => ?_⟩
    obtain ⟨y, -, -, rfl⟩ := real_finite hv
    obtain ⟨hle, htie⟩ := hnear y
    refine ⟨hle, fun hne heq => ?_⟩
    have heven := htie hne heq
    have hcode : infBits < 2 ^ 63 := by decide
    rw [packSign_even neg (by omega)]
    simp [heven]

/-- An exact integer, rounded: a zero has the sign given, and anything else is the datum that R130 asks for. -/
theorem roundInt_spec (zeroNeg : Bool) (v : Int) :
    (v = 0 → real (roundInt zeroNeg v) = .finite zeroNeg 0) ∧
    (v ≠ 0 → nearestEven (decide (v < 0)) v.natAbs 1 (roundInt zeroNeg v)) := by
  unfold roundInt
  refine ⟨fun h => ?_, fun h => ?_⟩
  · rw [if_pos h, real_packSign_zero]
  · rw [if_neg h]
    exact nearestEven_packSign_roundMag _ _ one_pos

theorem isNaN_real_roundInt (zeroNeg : Bool) (v : Int) : isNaN (real (roundInt zeroNeg v)) = false := by
  unfold roundInt
  split
  · exact isNaN_real_packSign _ (Nat.zero_le _)
  · exact isNaN_real_packSign _ (roundMag_le_infBits _ _)

/-- A nonzero finite datum divided by a zero is an infinity (42_float.md R135). -/
theorem divReal_zero {m : Nat} (hm : m ≠ 0) (a b : Bool) :
    divReal (.finite a m) (.finite b 0) = some (packSign (a ^^ b) infBits) := by
  rw [divReal, if_pos rfl, if_neg hm]

/-! ## Which operations give a NaN

The three operations are split along the branches of their definitions. -/

/-- A sum is a NaN for a NaN operand and for opposite infinities (42_float.md R132). -/
theorem addReal_eq_none_iff (x y : Real64) :
    addReal x y = none ↔ isNaN x = true ∨ isNaN y = true ∨ ∃ a, x = .inf a ∧ y = .inf !a := by
  fun_cases addReal x y <;> simp_all [isNaN]
  case case5 hne => exact Bool.eq_not_of_ne (Ne.symm hne)

/-- A difference is a NaN for a NaN operand and for equal infinities (42_float.md R133). -/
theorem subReal_eq_none_iff (x y : Real64) :
    subReal x y = none ↔ isNaN x = true ∨ isNaN y = true ∨ ∃ a, x = .inf a ∧ y = .inf a := by
  rw [subReal, addReal_eq_none_iff]
  simp only [isNaN_negReal, negReal_eq_inf]

/-- A product is a NaN for a NaN operand and for an infinity times a zero (42_float.md R134). -/
theorem mulReal_eq_none_iff (x y : Real64) :
    mulReal x y = none ↔ isNaN x = true ∨ isNaN y = true ∨
      ∃ a b, (x = .inf a ∧ y = .finite b 0) ∨ (x = .finite a 0 ∧ y = .inf b) := by
  fun_cases mulReal x y <;> simp_all [isNaN]

/-- A quotient is a NaN for a NaN operand, for two infinities and for two zeros (42_float.md R135). -/
theorem divReal_eq_none_iff (x y : Real64) :
    divReal x y = none ↔ isNaN x = true ∨ isNaN y = true ∨
      ∃ a b, (x = .inf a ∧ y = .inf b) ∨ (x = .finite a 0 ∧ y = .finite b 0) := by
  fun_cases divReal x y <;> simp_all [isNaN]

theorem isNaN_eq_false_of_mem_addReal {x y : Real64} : ∀ w ∈ addReal x y, isNaN (real w) = false := by
  fun_cases addReal x y <;> simp [isNaN_real_packSign, isNaN_real_roundInt]

theorem isNaN_eq_false_of_mem_subReal {x y : Real64} : ∀ w ∈ subReal x y, isNaN (real w) = false :=
  isNaN_eq_false_of_mem_addReal

theorem isNaN_eq_false_of_mem_mulReal {x y : Real64} : ∀ w ∈ mulReal x y, isNaN (real w) = false := by
  fun_cases mulReal x y <;> simp [isNaN_real_packSign, roundMag_le_infBits]

theorem isNaN_eq_false_of_mem_divReal {x y : Real64} : ∀ w ∈ divReal x y, isNaN (real w) = false := by
  fun_cases divReal x y <;> simp [isNaN_real_packSign, roundMag_le_infBits]

/-! ## What the instructions write -/

/-- The instruction `i` writes the result of `op` on the Real views of `ax` and `bx`, or a draw where there is none. -/
def Computes (i : Instr) (op : Real64 → Real64 → Option Word) : Prop :=
  ∀ s, exec i s = .next (s.writeReal (op (real s.ax) (real s.bx))).advance

theorem fadd_computes : Computes .fadd addReal := fun _ => rfl
theorem fsub_computes : Computes .fsub subReal := fun _ => rfl
theorem fmul_computes : Computes .fmul mulReal := fun _ => rfl
theorem fdiv_computes : Computes .fdiv divReal := fun _ => rfl

/-- Where the operation has a result, that result is written to `ax`. -/
theorem Computes.writes {i : Instr} {op : Real64 → Real64 → Option Word} {s : State} {x y : Real64} {w : Word}
    {result : Word → Prop} (hi : Computes i op) (hx : real s.ax = x) (hy : real s.bx = y) (hw : op x y = some w)
    (hres : result w) : writesAx i s result := by
  have hexec := hi s
  rw [hx, hy, hw] at hexec
  exact writesAx_of_exec hexec hres

/-- Where the operation gives an infinity, that infinity is written to `ax`. -/
theorem Computes.writesInf {i : Instr} {op : Real64 → Real64 → Option Word} {s : State} {x y : Real64} {neg : Bool}
    (hi : Computes i op) (hx : real s.ax = x) (hy : real s.bx = y) (hw : op x y = some (packSign neg infBits)) :
    writesAx i s fun r => real r = .inf neg :=
  hi.writes hx hy hw (real_packSign_inf neg)

/-- Where `invalid` says when the operation has no result, it says when the instruction writes a NaN, and that NaN is
the draw (42_float.md R130). -/
theorem Computes.completes {i : Instr} {op : Real64 → Real64 → Option Word} {s : State} {invalid : Prop}
    (hi : Computes i op) (hnone : op (real s.ax) (real s.bx) = none ↔ invalid)
    (hnum : ∀ w ∈ op (real s.ax) (real s.bx), isNaN (real w) = false) :
    ∃ t, exec i s = .next t ∧ t = { s with ax := t.ax, nanDraws := t.nanDraws, ip := s.ip + 1 } ∧
      (isNaN (real t.ax) = true ↔ invalid) ∧
      (isNaN (real t.ax) = true → isQuietNaN t.ax = true ∧ t.nanDraws = s.nanDraws + 1) ∧
      (isNaN (real t.ax) = false → t.nanDraws = s.nanDraws) := by
  refine ⟨_, hi s, ?_⟩
  cases hr : op (real s.ax) (real s.bx) with
  | none =>
    have hquiet := isQuietNaN_nanDraw s.nanDraws
    have hnan := isNaN_of_isQuietNaN hquiet
    exact ⟨rfl, iff_of_true hnan (hnone.1 hr), fun _ => ⟨hquiet, rfl⟩, fun h => nomatch hnan.symm.trans h⟩
  | some w =>
    have hnot : ¬isNaN (real w) = true := by simp [hnum w hr]
    exact ⟨rfl, iff_of_false hnot (fun h => by simp [hnone.2 h] at hr), fun h => absurd h hnot, fun _ => rfl⟩

/-! ## The obligations -/

/-- Settles O23: each operation by its own NaN cases. -/
theorem floatArithmeticCompletes : Obligations.FloatArithmeticCompletes := by
  intro s
  simp only [List.forall_mem_cons]
  exact ⟨fadd_computes.completes (addReal_eq_none_iff _ _) isNaN_eq_false_of_mem_addReal,
    fsub_computes.completes (subReal_eq_none_iff _ _) isNaN_eq_false_of_mem_subReal,
    fmul_computes.completes (mulReal_eq_none_iff _ _) isNaN_eq_false_of_mem_mulReal,
    fdiv_computes.completes (divReal_eq_none_iff _ _) isNaN_eq_false_of_mem_divReal, nofun⟩

/-- Settles O24: the exact integer sum is rounded once; a difference is the sum with `bx` negated. -/
theorem floatSumsRoundToNearestEven : Obligations.FloatSumsRoundToNearestEven := by
  intro s a b m n hx hy
  refine ⟨fadd_computes.writes hx hy rfl (roundInt_spec _ _), fsub_computes.writes hx hy rfl ?fsub⟩
  case fsub =>
    rw [signedMag_not, ← Int.sub_eq_add_neg]
    exact roundInt_spec _ _

/-- Settles O25: the exact product and quotient are rounded once. -/
theorem floatProductsRoundToNearestEven : Obligations.FloatProductsRoundToNearestEven := by
  intro s a b m n hx hy
  rw [← unitsPerOne]
  exact ⟨fmul_computes.writes hx hy rfl (nearestEven_packSign_roundMag _ _ unitsPerOne_pos),
    fun hn => fdiv_computes.writes hx hy (if_neg hn) (nearestEven_packSign_roundMag _ _ (Nat.pos_of_ne_zero hn))⟩

/-- Settles O26: each pair of operands is one branch of the operation. -/
theorem floatInfinitiesAndZeroDivisors : Obligations.FloatInfinitiesAndZeroDivisors := by
  intro s a b m n
  refine ⟨fun hx hm hy => ?zeroDivisor, fun hx hy => ?finiteInf, fun hx hy => ?infFinite, fun hx hy => ?infInf⟩
  case zeroDivisor => exact fdiv_computes.writesInf hx hy (divReal_zero hm a b)
  case finiteInf =>
    exact ⟨fdiv_computes.writes hx hy rfl (real_packSign_zero _), fadd_computes.writesInf hx hy rfl,
      fsub_computes.writesInf hx hy rfl, fun hm => fmul_computes.writesInf hx hy (if_neg hm)⟩
  case infFinite =>
    exact ⟨fdiv_computes.writesInf hx hy rfl, fadd_computes.writesInf hx hy rfl, fsub_computes.writesInf hx hy rfl,
      fun hn => fmul_computes.writesInf hx hy (if_neg hn)⟩
  case infInf =>
    exact ⟨fun hab => fadd_computes.writesInf hx hy (if_pos hab),
      fun hab => fsub_computes.writesInf hx hy (if_pos (Bool.eq_not_of_ne hab)), fmul_computes.writesInf hx hy rfl⟩

/-- Settles O22: bit by bit, and the Real view by its fields. -/
theorem fnegFlipsTheSign : Obligations.FnegFlipsTheSign := by
  refine ⟨rfl, fun s => writesAx_of_exec rfl ⟨fun k hk => ?low, ?sign, ?datum⟩⟩
  case low => rw [getLsbD_xor_signBit, decide_eq_false hk.ne, Bool.xor_false]
  case sign => exact (getLsbD_xor_signBit _ _).trans (Bool.xor_true _)
  case datum =>
    rw [real_xor_signBit]
    cases real s.ax <;> rfl

end Sys2Proof.Machine

/-! # Bitwise instructions (43_bitwise.md)

AND, OR, XOR and NOT write `ax` in every state. SHL and SHR end in the one shared shift, which writes its result or
faults by the amount alone. -/

namespace Sys2Proof.Machine

open Sys2Proof.Claims

/-! ## Instructions that shift -/

section Shift

variable {i : Instr} {s : State} {v : Word}

/-- By less than 64, an instruction that ends in a shift writes the shift's result (43_bitwise.md R154, R155). -/
theorem writesAx_of_shift {result : Word → Prop} (hi : exec i s = s.settle (s.shift v)) (hlt : s.bx.toNat < 64)
    (hv : result v) : writesAx i s result := by
  rcases s.shift_cases v with ⟨hge, -⟩ | ⟨-, e⟩
  · omega
  · exact writesAx_of_exec (by rw [hi, e, State.settle_ok]) hv

/-- By 64 or more, it only faults (60_exceptions.md R307). -/
theorem exec_of_shift_overflow (hi : exec i s = s.settle (s.shift v)) (hge : 64 ≤ s.bx.toNat) :
    exec i s = .next (faulted s (.shiftOverflow s.bx)) := by
  rcases s.shift_cases v with ⟨-, e⟩ | ⟨hlt, -⟩
  · rw [hi, e, State.settle_error]
    rfl
  · omega

end Shift

/-- A left shift by a Word multiplies by a power of two and drops the carry. -/
theorem toNat_shl (a n : Word) : (a <<< n).toNat = a.toNat * 2 ^ n.toNat % 2 ^ 64 := by
  rw [BitVec.shiftLeft_eq', BitVec.toNat_shiftLeft, Nat.shiftLeft_eq]

/-- A logical right shift by a Word divides by a power of two. -/
theorem toNat_shr (a n : Word) : (a >>> n).toNat = a.toNat / 2 ^ n.toNat := by
  rw [BitVec.ushiftRight_eq', BitVec.toNat_ushiftRight, Nat.shiftRight_eq_div_pow]

/-! ## The obligations -/

/-- Settles O29: each result bit by bit, and NOT by its unsigned value. -/
theorem bitwiseResults : Obligations.BitwiseResults := by
  refine ⟨⟨rfl, fun s => writesAx_of_exec rfl ?and⟩, ⟨rfl, fun s => writesAx_of_exec rfl ?or⟩,
    ⟨rfl, fun s => writesAx_of_exec rfl ?xor⟩, ⟨rfl, fun s => writesAx_of_exec rfl ?not⟩⟩
  case and => exact fun _ => BitVec.getLsbD_and
  case or => exact fun _ => BitVec.getLsbD_or
  case xor => exact fun _ => BitVec.getLsbD_xor
  case not => exact BitVec.toNat_not

/-- Settles O30: the amount decides between the shared shift's fault and its result. -/
theorem shiftResults : Obligations.ShiftResults := by
  refine ⟨rfl, rfl, fun s => ?_⟩
  split
  case isTrue hge => exact ⟨exec_of_shift_overflow rfl hge, exec_of_shift_overflow rfl hge⟩
  case isFalse hlt =>
    have hamount : s.bx.toNat < 64 := Nat.lt_of_not_le hlt
    exact ⟨writesAx_of_shift rfl hamount (toNat_shl s.ax s.bx), writesAx_of_shift rfl hamount (toNat_shr s.ax s.bx)⟩

end Sys2Proof.Machine

/-! # Jumps (44_jumps.md)

Every conditional jump compares `ax` with one right operand: `bx`, or the mode's `rhs` (R170). A jump is determined by
that operand and its comparison; which way it goes follows from the value of the comparison. -/

namespace Sys2Proof.Machine

open Sys2Proof.Claims

/-! ## The right operand -/

theorem State.rhs_of_corrected {s : State} (h : s.params.defectMode = .corrected) : s.rhs = s.bx := by
  simp only [State.rhs, h]

theorem State.rhs_of_literal {s : State} (h : s.params.defectMode = .literal) : s.rhs = s.ax := by
  simp only [State.rhs, h]

/-! ## Comparisons of Words -/

/-- Words are equal exactly when their unsigned readings are. -/
theorem eqW_eq_toNat (a b : Word) : eqW a b = decide (a.toNat = b.toNat) :=
  decide_eq_decide.2 BitVec.toNat_inj.symm

/-- The SignedWord order is the two's-complement one. -/
theorem ltS_eq_toInt (a b : Word) : ltS a b = decide (a.toInt < b.toInt) := by
  rw [ltS, sw_eq_toInt, sw_eq_toInt]

theorem leS_eq_toInt (a b : Word) : leS a b = decide (a.toInt ≤ b.toInt) := by
  rw [leS, sw_eq_toInt, sw_eq_toInt]

theorem ltS_self (a : Word) : ltS a a = false := decide_eq_false (lt_irrefl _)

theorem leS_self (a : Word) : leS a a = true := decide_eq_true le_rfl

/-! ## Comparisons of Reals -/

theorem ltReal_iff_below (x y : Real64) : ltReal x y = true ↔ below x y := by
  cases x <;> cases y <;> simp [ltReal, below]

theorem sameValue_comm (x y : Real64) : sameValue x y ↔ sameValue y x := by
  cases x <;> cases y <;> simp [sameValue, eq_comm]

/-- Numbers are totally ordered, so `<=f`, defined as not above, is below or the same. -/
theorem leReal_iff (x y : Real64) : leReal x y = true ↔ below x y ∨ sameValue x y := by
  cases x with
  | nan a f => simp [leReal, isNaN, below, sameValue]
  | inf a => cases a <;> cases y <;> simp [leReal, isNaN, ltReal, below, sameValue]
  | finite a m => cases y <;> simp [leReal, isNaN, ltReal, below, sameValue, le_iff_lt_or_eq]

theorem ltReal_self (x : Real64) : ltReal x x = false := by
  cases x <;> simp [ltReal]

/-- `<=f` is reflexive but for a NaN. -/
theorem leReal_self (x : Real64) : leReal x x = !isNaN x := by
  simp [leReal, ltReal_self]

/-! ## What the conditional jumps answer -/

/-- The instruction `i` jumps exactly when `rel` holds of `ax` and its right operand. -/
def JumpsWhen (i : Instr) (rel : Word → Word → Bool) (right : State → Word) : Prop :=
  ∀ s, exec i s = .next (s.jumpIf (rel s.ax (right s)))

theorem je_jumpsWhen : JumpsWhen .je eqW State.bx := fun _ => rfl
theorem jne_jumpsWhen : JumpsWhen .jne (fun a b => !eqW a b) State.bx := fun _ => rfl
theorem jg_jumpsWhen : JumpsWhen .jg (fun a b => ltS b a) State.rhs := fun _ => rfl
theorem jge_jumpsWhen : JumpsWhen .jge (fun a b => leS b a) State.rhs := fun _ => rfl
theorem jl_jumpsWhen : JumpsWhen .jl ltS State.rhs := fun _ => rfl
theorem jle_jumpsWhen : JumpsWhen .jle leS State.rhs := fun _ => rfl
theorem ja_jumpsWhen : JumpsWhen .ja (fun a b => ltU b a) State.bx := fun _ => rfl
theorem jae_jumpsWhen : JumpsWhen .jae (fun a b => leU b a) State.bx := fun _ => rfl
theorem jb_jumpsWhen : JumpsWhen .jb ltU State.bx := fun _ => rfl
theorem jbe_jumpsWhen : JumpsWhen .jbe leU State.bx := fun _ => rfl
theorem fjg_jumpsWhen : JumpsWhen .fjg (fun a b => ltF b a) State.rhs := fun _ => rfl
theorem fjge_jumpsWhen : JumpsWhen .fjge (fun a b => leF b a) State.rhs := fun _ => rfl
theorem fjl_jumpsWhen : JumpsWhen .fjl ltF State.rhs := fun _ => rfl
theorem fjle_jumpsWhen : JumpsWhen .fjle leF State.rhs := fun _ => rfl

/-- Every jump but JMP is such a comparison (44_jumps.md R170). -/
theorem exists_jumpsWhen : ∀ i ∈ jumps.tail, ∃ rel right, JumpsWhen i rel right := by
  simp only [jumps, List.tail_cons, List.forall_mem_cons]
  exact ⟨⟨_, _, je_jumpsWhen⟩, ⟨_, _, jne_jumpsWhen⟩, ⟨_, _, jg_jumpsWhen⟩, ⟨_, _, jge_jumpsWhen⟩, ⟨_, _, jl_jumpsWhen⟩,
    ⟨_, _, jle_jumpsWhen⟩, ⟨_, _, ja_jumpsWhen⟩, ⟨_, _, jae_jumpsWhen⟩, ⟨_, _, jb_jumpsWhen⟩, ⟨_, _, jbe_jumpsWhen⟩,
    ⟨_, _, fjg_jumpsWhen⟩, ⟨_, _, fjge_jumpsWhen⟩, ⟨_, _, fjl_jumpsWhen⟩, ⟨_, _, fjle_jumpsWhen⟩, nofun⟩

section JumpsWhen

variable {i : Instr} {rel : Word → Word → Bool} {right : State → Word} {s : State}

/-- The value of the comparison decides `ip`, and nothing else changes. -/
theorem JumpsWhen.exec_eq {taken : Bool} (hi : JumpsWhen i rel right) (h : rel s.ax (right s) = taken) :
    exec i s = .next { s with ip := if taken then s.dx else s.ip + 1 } := by
  rw [hi s, State.jumpIf_eq, h]

/-- Where `condition` says when the comparison holds, it says which way the jump goes. -/
theorem JumpsWhen.goes {condition : Prop} (hi : JumpsWhen i rel right)
    (h : rel s.ax (right s) = true ↔ condition) :
    ∃ t, exec i s = .next { s with ip := t } ∧ ((condition ∧ t = s.dx) ∨ (¬condition ∧ t = s.ip + 1)) := by
  refine ⟨_, hi.exec_eq rfl, ?_⟩
  split
  case isTrue hrel => exact .inl ⟨h.1 hrel, rfl⟩
  case isFalse hrel => exact .inr ⟨mt h.2 hrel, rfl⟩

/-- In LITERAL mode the right operand `rhs` is `ax` itself. -/
theorem JumpsWhen.exec_literal {taken : Bool} (hi : JumpsWhen i rel State.rhs)
    (hm : s.params.defectMode = .literal) (h : rel s.ax s.ax = taken) :
    exec i s = .next { s with ip := if taken then s.dx else s.ip + 1 } :=
  hi.exec_eq (by rw [State.rhs_of_literal hm, h])

/-- A comparison that holds of `ax` and itself but for a NaN, in LITERAL mode (44_jumps.md R183, R185). -/
theorem JumpsWhen.exec_unless_nan (hi : JumpsWhen i rel State.rhs) (hm : s.params.defectMode = .literal)
    (h : rel s.ax s.ax = !isNaN (real s.ax)) :
    exec i s = .next { s with ip := if isNaN (real s.ax) then s.ip + 1 else s.dx } := by
  rw [hi.exec_literal hm h]
  cases isNaN (real s.ax) <;> rfl

/-- The way of a jump on `rhs`, mode by mode. -/
theorem JumpsWhen.exec_byMode {corrected literal : Bool} (hi : JumpsWhen i rel State.rhs)
    (hc : rel s.ax s.bx = corrected) (hl : rel s.ax s.ax = literal) :
    exec i s = .next { s with
      ip := if (match s.params.defectMode with
          | .corrected => corrected
          | .literal => literal) then s.dx else s.ip + 1 } := by
  cases hm : s.params.defectMode with
  | corrected => exact hi.exec_eq (by rw [State.rhs_of_corrected hm, hc])
  | literal => exact hi.exec_literal hm hl

end JumpsWhen

/-! ## The obligations -/

/-- Settles O35: in CORRECTED each comparison is the ordered one of the Real views; in LITERAL it is of `ax` with
itself. -/
theorem floatJumps : Obligations.FloatJumps := by
  refine ⟨rfl, rfl, rfl, rfl, fun s hm x y hx hy => ?corrected, fun s hm => ?literal⟩
  case corrected =>
    rw [← State.rhs_of_corrected hm] at hy
    subst hx hy
    have hle := leReal_iff (real s.rhs) (real s.ax)
    rw [sameValue_comm] at hle
    exact ⟨fjg_jumpsWhen.goes (ltReal_iff_below _ _), fjge_jumpsWhen.goes hle,
      fjl_jumpsWhen.goes (ltReal_iff_below _ _), fjle_jumpsWhen.goes (leReal_iff _ _)⟩
  case literal =>
    exact ⟨fjg_jumpsWhen.exec_literal hm (ltReal_self _), fjl_jumpsWhen.exec_literal hm (ltReal_self _),
      fjge_jumpsWhen.exec_unless_nan hm (leReal_self _), fjle_jumpsWhen.exec_unless_nan hm (leReal_self _)⟩

/-- Settles O31: JMP by its definition, every other jump by its comparison. -/
theorem jumpsWriteOnlyIp : Obligations.JumpsWriteOnlyIp := by
  intro i hi s
  rcases List.mem_cons.1 hi with rfl | htail
  · exact ⟨s.jumpTo s.dx, rfl, rfl, .inl rfl⟩
  · obtain ⟨_, hnotTransfer, -⟩ := conditionalJump_facts i htail
    obtain ⟨rel, right, hjump⟩ := exists_jumpsWhen i htail
    obtain ⟨target, hexec, hway⟩ := hjump.goes (s := s) Iff.rfl
    exact ⟨_, hexec, rfl, hway.imp And.right fun h => ⟨fun hjmp => hnotTransfer (.inl hjmp), h.2⟩⟩

/-- Settles O32. -/
theorem jmpGoesToDx : Obligations.JmpGoesToDx := ⟨rfl, fun _ => rfl⟩

/-- Settles O33: each comparison is the one of the unsigned readings. -/
theorem equalityAndUnsignedJumps : Obligations.EqualityAndUnsignedJumps := by
  simp only [Obligations.EqualityAndUnsignedJumps, List.forall_mem_cons]
  refine ⟨⟨rfl, fun s => je_jumpsWhen.exec_eq (eqW_eq_toNat _ _)⟩, ⟨rfl, fun s => jne_jumpsWhen.exec_eq ?jne⟩,
    ⟨rfl, fun s => ja_jumpsWhen.exec_eq rfl⟩, ⟨rfl, fun s => jae_jumpsWhen.exec_eq rfl⟩,
    ⟨rfl, fun s => jb_jumpsWhen.exec_eq rfl⟩, ⟨rfl, fun s => jbe_jumpsWhen.exec_eq rfl⟩, nofun⟩
  case jne => rw [eqW_eq_toNat, ← decide_not]

/-- Settles O34: the two's-complement comparison with `bx` in CORRECTED, `ax` with itself in LITERAL. -/
theorem signedJumps : Obligations.SignedJumps := by
  simp only [Obligations.SignedJumps, List.forall_mem_cons]
  exact ⟨⟨rfl, fun s => jg_jumpsWhen.exec_byMode (ltS_eq_toInt _ _) (ltS_self _)⟩,
    ⟨rfl, fun s => jge_jumpsWhen.exec_byMode (leS_eq_toInt _ _) (leS_self _)⟩,
    ⟨rfl, fun s => jl_jumpsWhen.exec_byMode (ltS_eq_toInt _ _) (ltS_self _)⟩,
    ⟨rfl, fun s => jle_jumpsWhen.exec_byMode (leS_eq_toInt _ _) (leS_self _)⟩, nofun⟩

end Sys2Proof.Machine

/-! # Call and return (45_call_ret.md)

CALL without room and RET on an empty stack, and the obligations on the two instructions. Their successful cases are
`exec_call_of_room` and `exec_ret_of_word`, with the stack. -/

namespace Sys2Proof.Machine

open Sys2Proof.Claims

/-! ## The faults -/

/-- CALL without room for the return address faults (45_call_ret.md R200). -/
theorem exec_call_of_full {s : State} (h : s.params.memWords.toNat ≤ (s.sp - 1).toNat) :
    exec .call s = .next (s.raise (.outOfBounds (s.sp - 1))) := by
  simp only [exec, execCall, State.pushWord_of_full h, State.settle_error]

/-- RET with `sp` outside memory faults (45_call_ret.md R201). -/
theorem exec_ret_of_empty {s : State} (h : s.params.memWords.toNat ≤ s.sp.toNat) :
    exec .ret s = .next (s.raise (.outOfBounds s.sp)) := by
  simp only [exec, execRet, State.popInto_of_empty h, State.settle_error]

/-! ## The obligations -/

/-- Settles O13, with and without room for the return address. -/
theorem callPushesReturnAddress : Obligations.CallPushesReturnAddress := by
  refine ⟨rfl, fun s => ?_⟩
  split
  · next hroom => exact ⟨_, exec_call_of_room hroom, rfl, fun a => Memory.read_write _ _ _ _⟩
  · next hfull => exact exec_call_of_full (not_lt.1 hfull)

/-- Settles O14, with and without a return address to pop. -/
theorem retPopsIntoDx : Obligations.RetPopsIntoDx := by
  refine ⟨rfl, fun s => ?_⟩
  split
  · next hword => exact exec_ret_of_word hword
  · next hempty => exact exec_ret_of_empty (not_lt.1 hempty)

end Sys2Proof.Machine

/-! # System calls (46_syscall.md)

SYSCALL by its selector, the characters syscall 0 writes and where it stops, the steps of a core that waits for the
host, and what an instruction leaves of the host channels. -/

namespace Sys2Proof.Machine

open Sys2Proof.Claims

/-! ## SYSCALL by its selector -/

/-- Selector 0 writes (46_syscall.md R212). -/
theorem exec_syscall_of_zero {s : State} (h : s.ax = 0) : exec .syscall s = .next (sysWrite s) := by
  simp only [exec, execSyscall, if_pos h]

/-- Selector 1 blocks for a line (46_syscall.md R213). -/
theorem exec_syscall_of_one {s : State} (h : s.ax = 1) : exec .syscall s = .next { s with runState := .blockedIn } := by
  have h0 : s.ax ≠ 0 := by rw [h]; decide
  simp only [exec, execSyscall, if_neg h0, if_pos h]
  rfl

/-- Selector 2 terminates (46_syscall.md R214). -/
theorem exec_syscall_of_two {s : State} (h : s.ax = 2) :
    exec .syscall s = .next { s with ax := s.dx, ip := s.params.memWords } := by
  have h0 : s.ax ≠ 0 := by rw [h]; decide
  have h1 : s.ax ≠ 1 := by rw [h]; decide
  simp only [exec, execSyscall, if_neg h0, if_neg h1, if_pos h]
  rfl

/-- Any other selector faults (46_syscall.md R215). -/
theorem exec_syscall_of_unknown {s : State} (h0 : s.ax ≠ 0) (h1 : s.ax ≠ 1) (h2 : s.ax ≠ 2) :
    exec .syscall s = .next (s.raise (.unknownSyscall s.ax)) := by
  simp only [exec, execSyscall, if_neg h0, if_neg h1, if_neg h2]

/-! ## The characters of syscall 0 -/

/-- The Word at `a` is one that syscall 0 writes: it is in memory and a Unicode scalar value. -/
def IsCharAt (limit : Nat) (m : Memory) (a : Nat) : Prop := a < limit ∧ isScalarValue (m.read a) = true

/-- The output of `n` characters from `a` up. -/
def charsFrom (m : Memory) (a n : Nat) : List OutEvent := (List.range n).map fun j => .char (m.read (a + j))

/-- The fault of a Word that syscall 0 may not write; the bounds are checked first (60_exceptions.md R311). -/
def charFault (limit : Nat) (m : Memory) (a : Nat) : FaultCause :=
  if limit ≤ a then .outOfBounds (BitVec.ofNat 64 a) else .invalidCodePoint (m.read a)

section writeChars

variable {limit : Nat} {m : Memory} {n a k : Nat}

/-- Where the loop ends (46_syscall.md R212): it has appended `k` characters, and either they are all or the Word after
them is no character and gives the fault. -/
theorem writeChars_stop (limit : Nat) (m : Memory) (n a : Nat) :
    ∃ k, (∀ j, j < k → IsCharAt limit m (a + j)) ∧
      ((k = n ∧ writeChars limit m n a = (charsFrom m a k, none)) ∨
       (k < n ∧ ¬IsCharAt limit m (a + k) ∧
        writeChars limit m n a = (charsFrom m a k, some (charFault limit m (a + k))))) := by
  obtain ⟨k, -, hout, hgood, hend⟩ := writeChars_spec limit m n a
  refine ⟨k, hgood, ?_⟩
  rcases hend with ⟨hk, hnone⟩ | ⟨hk, hlim, hfault⟩ | ⟨hk, hlim, hchar, hfault⟩
  · exact .inl ⟨hk, Prod.ext hout hnone⟩
  · refine .inr ⟨hk, fun hc => absurd hc.1 (not_lt.2 hlim), Prod.ext hout ?_⟩
    rw [hfault, charFault, if_pos hlim]
  · refine .inr ⟨hk, fun hc => Bool.false_ne_true (hchar.symm.trans hc.2), Prod.ext hout ?_⟩
    rw [hfault, charFault, if_neg (not_le.2 hlim)]

/-- Where every Word is a character, all are written. -/
theorem writeChars_of_chars (h : ∀ j, j < n → IsCharAt limit m (a + j)) :
    writeChars limit m n a = (charsFrom m a n, none) := by
  obtain ⟨k, -, ⟨rfl, e⟩ | ⟨hk, hbad, -⟩⟩ := writeChars_stop limit m n a
  · exact e
  · exact absurd (h k hk) hbad

/-- The loop stops at the first Word that is no character. -/
theorem writeChars_of_first_bad (hk : k < n) (hgood : ∀ j, j < k → IsCharAt limit m (a + j))
    (hbad : ¬IsCharAt limit m (a + k)) :
    writeChars limit m n a = (charsFrom m a k, some (charFault limit m (a + k))) := by
  obtain ⟨k', hgood', ⟨rfl, -⟩ | ⟨-, hbad', e⟩⟩ := writeChars_stop limit m n a
  · exact absurd (hgood' k hk) hbad
  · obtain hlt | rfl | hgt := Nat.lt_trichotomy k' k
    · exact absurd (hgood k' hlt) hbad'
    · exact e
    · exact absurd (hgood' k hgt) hbad

end writeChars

section sysWrite

variable {s : State} {k : Nat}

/-- Syscall 0 on characters only (46_syscall.md R212). -/
theorem sysWrite_of_chars (h : ∀ j, j < s.cx.toNat → IsCharAt s.params.memWords.toNat s.mem (s.dx.toNat + j)) :
    sysWrite s = { s with
      dx := s.dx + s.cx, cx := 0, runState := .blockedOut,
      output := s.output ++ charsFrom s.mem s.dx.toNat s.cx.toNat ++ [.flush] } := by
  rw [sysWrite, writeChars_of_chars h]

/-- Syscall 0 faults at the first Word that is no character and keeps the output before it (46_syscall.md R212,
60_exceptions.md R305). -/
theorem sysWrite_of_first_bad (hk : k < s.cx.toNat)
    (hgood : ∀ j, j < k → IsCharAt s.params.memWords.toNat s.mem (s.dx.toNat + j))
    (hbad : ¬IsCharAt s.params.memWords.toNat s.mem (s.dx.toNat + k)) :
    sysWrite s = { s with output := s.output ++ charsFrom s.mem s.dx.toNat k }.raise
      (charFault s.params.memWords.toNat s.mem (s.dx.toNat + k)) := by
  rw [sysWrite, writeChars_of_first_bad hk hgood hbad]

/-- Syscall 0 only appends to the output. -/
theorem sysWrite_output_append (s : State) : ∃ more, (sysWrite s).output = s.output ++ more := by
  rcases sysWrite_cases s with ⟨chars, -, e⟩ | ⟨chars, _, -, e⟩ <;> rw [e]
  · exact ⟨chars ++ [.flush], List.append_assoc ..⟩
  · exact ⟨chars, rfl⟩

end sysWrite

/-! ## A core that waits for the host -/

section waits

variable {s : State}

/-- BLOCKED_OUT without an acknowledgement waits (46_syscall.md R216; log 12). -/
theorem step_blockedOut_of_no_ack (hb : s.runState = .blockedOut) (ha : s.acks = 0) : step s = .next s := by
  rw [step_blockedOut hb, State.completeWrite, ha]

/-- An acknowledgement completes syscall 0 (46_syscall.md R216). -/
theorem step_blockedOut_of_ack {n : Nat} (hb : s.runState = .blockedOut) (ha : s.acks = n + 1) :
    step s = .next { s with acks := n, runState := .running, ip := s.ip + 1 } := by
  rw [step_blockedOut hb, State.completeWrite, ha]
  rfl

/-- BLOCKED_IN without a line waits (46_syscall.md R216; log 12). -/
theorem step_blockedIn_of_no_line (hb : s.runState = .blockedIn) (hl : s.lines = []) : step s = .next s := by
  rw [step_blockedIn hb, State.completeReadLine, hl]

variable {line : List Word} {later : List (List Word)}

/-- A line that is empty or ends below MEM_WORDS is stored and completes syscall 1 (46_syscall.md R213). -/
theorem step_blockedIn_of_fits (hb : s.runState = .blockedIn) (hl : s.lines = line :: later)
    (hfit : line.length = 0 ∨ s.dx.toNat + line.length - 1 < s.params.memWords.toNat) :
    step s = .next { s with
      lines := later, runState := .running, mem := s.mem.writeList s.dx.toNat line, ip := s.ip + 1 } := by
  rw [step_blockedIn hb, State.completeReadLine, hl]
  exact congrArg _ (if_neg (by omega))

/-- A line that reaches MEM_WORDS is used up and faults at its first Word outside memory (46_syscall.md R213; log 27). -/
theorem step_blockedIn_of_overflow (hb : s.runState = .blockedIn) (hl : s.lines = line :: later)
    (hover : ¬(line.length = 0 ∨ s.dx.toNat + line.length - 1 < s.params.memWords.toNat)) :
    step s = .next (faulted { s with lines := later }
      (.outOfBounds (BitVec.ofNat 64 (max s.dx.toNat s.params.memWords.toNat)))) := by
  rw [step_blockedIn hb, State.completeReadLine, hl]
  exact congrArg _ (if_pos (by omega))

end waits

/-- The larger of two Words, by their values. -/
theorem ofNat_max_toNat (a b : Word) : BitVec.ofNat 64 (max a.toNat b.toNat) = if a.toNat < b.toNat then b else a := by
  split
  · next h => rw [max_eq_right h.le, BitVec.ofNat_toNat, BitVec.setWidth_eq]
  · next h => rw [max_eq_left (not_lt.1 h), BitVec.ofNat_toNat, BitVec.setWidth_eq]

/-- A Word of the list stands at its address after the list was written from `a` up. -/
theorem Memory.read_writeList_of_getElem? {vs : List Word} {k : Nat} {w : Word} (h : vs[k]? = some w) (m : Memory)
    (a : Nat) : (m.writeList a vs).read (a + k) = w := by
  rw [Memory.read_writeList, if_pos (Nat.le_add_right a k), Nat.add_sub_cancel_left, List.getD_eq_getElem?_getD, h,
    Option.getD_some]

/-! ## The host channels -/

/-- The two states agree on what the host has yet to say. -/
def SameHostAnswers (s t : State) : Prop := t.lines = s.lines ∧ t.acks = s.acks ∧ t.commands = s.commands

/-- The registers such an instruction writes are no answers of the host. -/
theorem RegistersOnly.sameHostAnswers {s t : State} (h : RegistersOnly s t) : SameHostAnswers s t := by
  unfold RegistersOnly at h
  exact ⟨by rw [h], by rw [h], by rw [h]⟩

/-- No instruction uses up an answer of the host: a syscall takes it in its second step (log 17). -/
theorem exec_sameHostAnswers {i : Instr} {s t : State} (h : exec i s = .next t) : SameHostAnswers s t := by
  rcases exec_cases h with ⟨-, hsys⟩ | ⟨-, ⟨-, rfl⟩ | ⟨-, rfl⟩⟩ | ⟨-, ⟨-, rfl⟩ | ⟨-, rfl⟩⟩ | ⟨c, -, rfl⟩ | ⟨-, hregs, -⟩
  · rcases hsys with ⟨-, rfl⟩ | ⟨-, rfl⟩ | ⟨-, rfl⟩ | rfl
    · rcases sysWrite_cases s with ⟨_, -, e⟩ | ⟨_, _, -, e⟩ <;> rw [e] <;> exact ⟨rfl, rfl, rfl⟩
    all_goals exact ⟨rfl, rfl, rfl⟩
  case inr.inr.inr.inr => exact hregs.sameHostAnswers
  all_goals exact ⟨rfl, rfl, rfl⟩

/-! ## The obligations -/

/-- Settles O36: all Words are characters, or the first that is none decides the fault. -/
theorem syscallWrite : Obligations.SyscallWrite := by
  refine fun s hax => ⟨fun hchars => ?written, fun k hk hgood => ?stopped⟩
  case written =>
    exact ⟨_, (exec_syscall_of_zero hax).trans (congrArg _ (sysWrite_of_chars hchars)), rfl,
      fun n hn => step_blockedOut_of_ack rfl hn⟩
  case stopped =>
    have stop (hbad) := (exec_syscall_of_zero hax).trans (congrArg _ (sysWrite_of_first_bad hk hgood hbad))
    constructor
    · intro hlim
      have e := stop fun hc => absurd hc.1 (not_lt.2 hlim)
      rwa [charFault, if_pos hlim] at e
    · intro hlim hchar
      have e := stop fun hc => Bool.false_ne_true (hchar.symm.trans hc.2)
      rwa [charFault, if_neg (not_le.2 hlim)] at e

/-- Settles O37: the block by the selector, the completion by whether the line fits. -/
theorem syscallReadLine : Obligations.SyscallReadLine := by
  refine ⟨fun s hax => exec_syscall_of_one hax, fun s ws later hb hl => ?_⟩
  split
  · next hfit =>
    refine ⟨_, step_blockedIn_of_fits hb hl hfit, rfl, fun k w hk => Memory.read_writeList_of_getElem? hk _ _,
      fun a ha => ?_⟩
    by_contra hne
    obtain ⟨hlo, hhi⟩ := Memory.range_of_read_writeList_ne hne
    omega
  · next hover => rw [step_blockedIn_of_overflow hb hl hover, ofNat_max_toNat]

/-- Settles O41: the answers by `exec_sameHostAnswers`, the output by `exec_output`. -/
theorem onlySyscallReachesTheHost : Obligations.OnlySyscallReachesTheHost := by
  intro i s t h
  obtain ⟨hlines, hacks, hcommands⟩ := exec_sameHostAnswers h
  refine ⟨hlines, hacks, hcommands, ?_⟩
  rcases exec_output h with e | ⟨hi, -, rfl⟩
  · exact ⟨fun _ => e, [], by rw [e, List.append_nil]⟩
  · exact ⟨fun hne => absurd hi hne, sysWrite_output_append s⟩

/-- Settles O38: the terminal `ip` is not in memory, so the next step is the terminal check. -/
theorem syscallTerminate : Obligations.SyscallTerminate :=
  fun _ hax => ⟨exec_syscall_of_two hax, fun hr => step_of_ip_past_memory hr le_rfl⟩

/-- Settles O39. -/
theorem unknownSelectorFaults : Obligations.UnknownSelectorFaults :=
  ⟨rfl, fun _ h0 h1 h2 => exec_syscall_of_unknown h0 h1 h2⟩

/-- Settles O40. -/
theorem blockedCoreWaitsForTheHost : Obligations.BlockedCoreWaitsForTheHost :=
  ⟨fun _ => step_blockedOut_of_no_ack, fun _ _ => step_blockedOut_of_ack, fun _ => step_blockedIn_of_no_line⟩

end Sys2Proof.Machine

/-! # Moves (47_move.md)

An immediate load is determined by the register it loads, a register move by its source and its destination; what each
changes and leaves then follows from the laws of `State.set`. -/

namespace Sys2Proof.Machine

open Sys2Proof.Claims

/-! ## A register write and the advance -/

@[simp] theorem State.get_advance (s : State) (r : Reg) : s.advance.get r = s.get r := by
  cases r <;> rfl

/-- Setting a general register and advancing leaves all but the general registers and `ip` (10_state.md R33). -/
theorem State.advance_set_frame (s : State) (r : Reg) (v : Word) :
    (s.set r v).advance = { s with
      ax := (s.set r v).ax, bx := (s.set r v).bx, cx := (s.set r v).cx, dx := (s.set r v).dx, ip := s.ip + 1 } := by
  cases r <;> rfl

/-! ## Immediate loads -/

/-- The instructions `build imm` load their immediate into `r`. -/
def LoadsImmediate (build : Word → Instr) (r : Reg) : Prop :=
  ∀ imm s, exec (build imm) s = .next (s.set r imm).advanceTwo

theorem moveOpToAx_loads : LoadsImmediate .moveOpToAx .ax := fun _ _ => rfl
theorem moveOpToBx_loads : LoadsImmediate .moveOpToBx .bx := fun _ _ => rfl
theorem moveOpToCx_loads : LoadsImmediate .moveOpToCx .cx := fun _ _ => rfl
theorem moveOpToDx_loads : LoadsImmediate .moveOpToDx .dx := fun _ _ => rfl

section LoadsImmediate

variable {build : Word → Instr} {r : Reg} {s : State}

/-- The register and `ip` change, nothing else (47_move.md R240 to R243). -/
theorem LoadsImmediate.exec_eq (hl : LoadsImmediate build r) (imm : Word) (s : State) :
    exec (build imm) s = .next { s.set r imm with ip := s.ip + 2 } := by
  rw [hl imm s, State.advanceTwo, State.set_ip]

/-- A running step on an immediate load's opcode: the Word at `ip + 1`, or the fault where there is none. -/
theorem LoadsImmediate.step_eq (hl : LoadsImmediate build r)
    (hb : build ∈ [Instr.moveOpToAx, Instr.moveOpToBx, Instr.moveOpToCx, Instr.moveOpToDx])
    (hr : s.runState = .running) (hm : OpcodeMap.ok s.params.opcodeMap = true)
    (hip : s.ip.toNat < s.params.memWords.toNat)
    (hop : s.mem.read s.ip.toNat = opcodeWord s.params.opcodeMap (build 0)) :
    if s.ip.toNat + 1 < s.params.memWords.toNat then
      step s = .next { s.set r (s.mem.read (s.ip.toNat + 1)) with ip := s.ip + 2 }
    else step s = .next (faulted s (.outOfBounds (s.ip + 1))) := by
  obtain ⟨-, hinMemory⟩ := runningCycle s hr hm
  obtain ⟨-, -, -, himmediate⟩ := hinMemory hip
  rw [← hl.exec_eq]
  exact himmediate build hb hop

end LoadsImmediate

/-! ## Register moves -/

/-- The instruction `i` moves `src` to `dst` (47_move.md R249). -/
def MovesRegister (i : Instr) (src dst : Reg) : Prop := ∀ s, exec i s = .next (s.move src dst).advance

theorem moveAxToBx_moves : MovesRegister .moveAxToBx .ax .bx := fun _ => rfl
theorem moveAxToCx_moves : MovesRegister .moveAxToCx .ax .cx := fun _ => rfl
theorem moveAxToDx_moves : MovesRegister .moveAxToDx .ax .dx := fun _ => rfl
theorem moveBxToAx_moves : MovesRegister .moveBxToAx .bx .ax := fun _ => rfl
theorem moveBxToCx_moves : MovesRegister .moveBxToCx .bx .cx := fun _ => rfl
theorem moveBxToDx_moves : MovesRegister .moveBxToDx .bx .dx := fun _ => rfl
theorem moveCxToAx_moves : MovesRegister .moveCxToAx .cx .ax := fun _ => rfl
theorem moveCxToBx_moves : MovesRegister .moveCxToBx .cx .bx := fun _ => rfl
theorem moveCxToDx_moves : MovesRegister .moveCxToDx .cx .dx := fun _ => rfl
theorem moveDxToAx_moves : MovesRegister .moveDxToAx .dx .ax := fun _ => rfl
theorem moveDxToBx_moves : MovesRegister .moveDxToBx .dx .bx := fun _ => rfl
theorem moveDxToCx_moves : MovesRegister .moveDxToCx .dx .cx := fun _ => rfl

/-- A move completes in every state: `dst` holds the source, the other general registers stay, `ip` is one higher. -/
theorem MovesRegister.copies {i : Instr} {src dst : Reg} (hi : MovesRegister i src dst) (s : State) :
    ∃ t, exec i s = .next t ∧ t.get dst = s.get src ∧ (∀ r, r ≠ dst → t.get r = s.get r) ∧
      t = { s with ax := t.ax, bx := t.bx, cx := t.cx, dx := t.dx, ip := s.ip + 1 } := by
  refine ⟨_, hi s, ?copied, fun r hr => ?others, s.advance_set_frame dst (s.get src)⟩
  case copied => rw [State.get_advance, State.move, State.get_set_same]
  case others => rw [State.get_advance, State.move, State.get_set_other s hr]

/-! ## The obligations -/

/-- Settles O43: each load by its register, executed and stepped. -/
theorem immediateLoads : Obligations.ImmediateLoads := by
  simp only [Obligations.ImmediateLoads, List.forall_mem_cons]
  exact ⟨⟨rfl, moveOpToAx_loads.exec_eq, fun _ => moveOpToAx_loads.step_eq (by simp)⟩,
    ⟨rfl, moveOpToBx_loads.exec_eq, fun _ => moveOpToBx_loads.step_eq (by simp)⟩,
    ⟨rfl, moveOpToCx_loads.exec_eq, fun _ => moveOpToCx_loads.step_eq (by simp)⟩,
    ⟨rfl, moveOpToDx_loads.exec_eq, fun _ => moveOpToDx_loads.step_eq (by simp)⟩, nofun⟩

/-- Settles O44: each move by its source and destination. -/
theorem registerMovesCopy : Obligations.RegisterMovesCopy := by
  simp only [Obligations.RegisterMovesCopy, List.forall_mem_cons]
  exact ⟨⟨rfl, moveAxToBx_moves.copies⟩, ⟨rfl, moveAxToCx_moves.copies⟩, ⟨rfl, moveAxToDx_moves.copies⟩,
    ⟨rfl, moveBxToAx_moves.copies⟩, ⟨rfl, moveBxToCx_moves.copies⟩, ⟨rfl, moveBxToDx_moves.copies⟩,
    ⟨rfl, moveCxToAx_moves.copies⟩, ⟨rfl, moveCxToBx_moves.copies⟩, ⟨rfl, moveCxToDx_moves.copies⟩,
    ⟨rfl, moveDxToAx_moves.copies⟩, ⟨rfl, moveDxToBx_moves.copies⟩, ⟨rfl, moveDxToCx_moves.copies⟩, nofun⟩

end Sys2Proof.Machine

/-! # Conversions (48_convert.md)

A finite datum is the only nearest one to its own magnitude, so encoding the Real view gives the Word back. An integer
is rounded once, from its value in units of 2^-1074; a datum is truncated, clamped and then kept whole by `trunc_W`. -/

namespace Sys2Proof.Machine

open Sys2Proof.Claims

/-! ## A code from its magnitude -/

/-- The largest finite magnitude (42_float.md R130). -/
theorem unitsOf_infBits_pred : unitsOf (infBits - 1) = (2 ^ 54 - 2) * 2 ^ 2044 := by
  have hcode : infBits - 1 = (2044 + 1) * 2 ^ 52 + (2 ^ 53 - 1) := by decide
  rw [hcode, unitsOf_code (by omega) (by omega), pow_succ 2 2044]
  generalize 2 ^ 2044 = P
  omega

/-- A finite datum lies below the magnitudes that round to infinity. -/
theorem unitsOf_lt_overflowUnits {x : Nat} (hx : x < infBits) : unitsOf x < overflowUnits := by
  have hle : unitsOf x ≤ unitsOf (infBits - 1) := unitsOf_strictMono.monotone (Nat.le_pred_of_lt hx)
  have hpos : 0 < 2 ^ 2044 := by positivity
  rw [unitsOf_infBits_pred] at hle
  rw [overflowUnits]
  generalize 2 ^ 2044 = P at hle hpos ⊢
  omega

/-- A magnitude that is a datum's rounds to that datum: nothing is nearer to it than itself. -/
theorem roundMag_unitsOf {x : Nat} (hx : x < infBits) : roundMag (unitsOf x) 1 = x := by
  have hlt := unitsOf_lt_overflowUnits hx
  have hround := roundMag_nearest (unitsOf x) one_pos
  rw [overflowUnits] at hlt
  generalize 2 ^ 2044 = P at hlt hround
  rcases hround with ⟨hover, -⟩ | ⟨-, -, hnear⟩
  · omega
  · obtain ⟨hle, -⟩ := hnear x
    simp only [offBy_eq, one_mul] at hle
    exact unitsOf_strictMono.injective (by omega)

/-- Encoding the datum of a sign and a code gives them back (48_convert.md R274). -/
theorem bits_real_packSign (neg : Bool) {x : Nat} (hx : x < 2 ^ 63) :
    bits (real (packSign neg x)) = packSign neg x := by
  have hinf : infBits = 2047 * 2 ^ 52 := rfl
  rw [real_packSign neg hx]
  split_ifs with hexp hfrac
  · have hlow : x % 2 ^ 52 = 0 := (BitVec.toNat_ofNat x 52).symm.trans (congrArg BitVec.toNat hfrac)
    have hcode : infBits = x := by omega
    rw [bits, hcode]
  · have hcode : infBits + (BitVec.ofNat 52 x).toNat = x := by
      rw [BitVec.toNat_ofNat]
      omega
    rw [bits, hcode]
  · rw [bits, roundMag_unitsOf (by omega)]

/-! ## Rounding an integer -/

/-- Where an exact zero is to be `+0`, rounding needs no case of its own for zero. -/
theorem roundInt_false (v : Int) : roundInt false v = packSign (decide (v < 0)) (roundMag v.natAbs 1) := by
  unfold roundInt
  split
  case isTrue hzero =>
    subst hzero
    rfl
  case isFalse => rfl

/-- An integer as a Real, rounded as R270 and R271 ask (48_convert.md). -/
theorem nearestEven_ofInteger (v : Int) :
    nearestEven (decide (v < 0)) (v.natAbs * unitsPerOne) 1 (ofInteger v) := by
  have hpos : (0 : Int) < unitsPerOne := Int.natCast_pos.2 unitsPerOne_pos
  have hsign : v * unitsPerOne < 0 ↔ v < 0 := by rw [mul_neg_iff]; omega
  have hround := nearestEven_packSign_roundMag (decide (v < 0)) (v.natAbs * unitsPerOne) one_pos
  rwa [ofInteger, roundInt_false, decide_eq_decide.2 hsign, Int.natAbs_mul, Int.natAbs_natCast]

/-! ## Truncating to a Word -/

/-- An integer clamped to the range of a Word is kept by `trunc_W` (48_convert.md R272). -/
theorem toNat_truncW_clamp (v : Int) :
    ((truncW (max 0 (min (2 ^ 64 - 1) v))).toNat : Int) = max 0 (min (2 ^ 64 - 1) v) := by
  rw [Represents.toNat_eq (v := max 0 (min (2 ^ 64 - 1) v)) rfl]
  omega

/-- An integer clamped to the range of a SignedWord is kept by `trunc_W` (48_convert.md R273). -/
theorem sw_truncW_clamp (v : Int) :
    sw (truncW (max (-2 ^ 63) (min (2 ^ 63 - 1) v))) = max (-2 ^ 63) (min (2 ^ 63 - 1) v) := by
  rw [Represents.sw_eq (v := max (-2 ^ 63) (min (2 ^ 63 - 1) v)) rfl, wrapSigned]
  omega

/-- CWTOR as a write of `ax` (48_convert.md R270), to be rewritten with: a comparison of two such states by evaluation
would compute 2^1074. -/
theorem exec_cwtor (s : State) : exec .cwtor s = .next (s.set .ax (ofInteger s.ax.toNat)).advance := rfl

/-! ## The obligations -/

/-- Settles O21: a Word is its sign and its code. -/
theorem realViewRoundTrips : Obligations.RealViewRoundTrips := by
  intro w
  rw [← packSign_msb w]
  exact bits_real_packSign _ (Nat.mod_lt _ (by positivity))

/-- Settles O27: both instructions round their integer once. -/
theorem integerToRealRoundsToNearestEven : Obligations.IntegerToRealRoundsToNearestEven := by
  refine ⟨rfl, rfl, fun s => ?_⟩
  rw [← unitsPerOne]
  exact ⟨writesAx_of_exec (exec_cwtor s) (nearestEven_ofInteger s.ax.toNat),
    writesAx_of_exec rfl (nearestEven_ofInteger (sw s.ax))⟩

/-- Settles O28: what is clamped to the target's range is kept by `trunc_W`; NaNs and infinities by evaluation. -/
theorem realToIntegerTruncatesAndSaturates : Obligations.RealToIntegerTruncatesAndSaturates := by
  refine ⟨rfl, rfl, fun s => ⟨writesAx_of_exec rfl ?crtow, writesAx_of_exec rfl ?crtosw⟩⟩
  case crtow =>
    cases real s.ax with
    | nan _ _ => rfl
    | inf neg => cases neg <;> rfl
    | finite neg m =>
      rw [← unitsPerOne]
      dsimp only
      rw [← Int.natCast_inj, truncClamp, toNat_truncW_clamp]
      generalize m / unitsPerOne = k
      cases neg <;> simp [signedMag, min_comm]
  case crtosw =>
    cases real s.ax with
    | nan _ _ => rfl
    | inf neg => cases neg <;> rfl
    | finite neg m =>
      rw [← unitsPerOne]
      dsimp only
      rw [truncClamp, sw_truncW_clamp]
      generalize m / unitsPerOne = k
      cases neg <;> simp [signedMag]

end Sys2Proof.Machine

/-! # The reserved instruction (49_reserved.md) -/

namespace Sys2Proof.Machine

open Sys2Proof.Claims

/-- Settles O45. -/
theorem derefAlwaysFaults : Obligations.DerefAlwaysFaults := ⟨rfl, fun _ => rfl⟩

end Sys2Proof.Machine

/-! # Exceptions (60_exceptions.md)

Every way an instruction or a running step can fault, with the causes it can record, and that an instruction runs the
same whatever the host has yet to say. -/

namespace Sys2Proof.Machine

open Sys2Proof.Claims

/-! ## Unknown opcodes -/

/-- The default map numbers the catalog from 0 (30_encoding.md R76). -/
theorem defaultOpcodeMap_eq_range : defaultOpcodeMap = (List.range 59).map (BitVec.ofNat 64) := rfl

/-- The default map holds only Words below 59 (30_encoding.md R78). -/
theorem toNat_lt_of_mem_defaultOpcodeMap {op : Word} (h : op ∈ defaultOpcodeMap) : op.toNat < 59 := by
  rw [defaultOpcodeMap_eq_range, List.mem_map] at h
  obtain ⟨n, hn, rfl⟩ := h
  rw [BitVec.toNat_ofNat]
  exact (Nat.mod_le _ _).trans_lt (List.mem_range.1 hn)

/-! ## How an instruction faults -/

/-- What a fault taken by the instruction `i` in `s` leaves: `c` is recorded, and only a syscall 0 has output, which is
`more` (60_exceptions.md R300 to R311). -/
def FaultsWith (i : Instr) (s : State) (c : FaultCause) (more : List OutEvent) : Prop :=
  (RaisedBy i s c ∧ more = []) ∨
  (i = .syscall ∧ c = .unknownSyscall s.ax ∧ more = []) ∨
  (i = .syscall ∧ s.ax = 0 ∧ ((∃ a, c = .outOfBounds a) ∨ ∃ w, c = .invalidCodePoint w))

/-- What ends the character loop early (46_syscall.md R212). -/
theorem writeChars_fault {limit n a : Nat} {m : Memory} {c : FaultCause} (h : (writeChars limit m n a).2 = some c) :
    (∃ b, c = .outOfBounds b) ∨ ∃ w, c = .invalidCodePoint w := by
  obtain ⟨k, -, -, -, ⟨-, e⟩ | ⟨-, -, e⟩ | ⟨-, -, -, e⟩⟩ := writeChars_spec limit m n a <;> rw [e] at h <;> cases h
  · exact .inl ⟨_, rfl⟩
  · exact .inr ⟨_, rfl⟩

/-- Appending nothing to the output changes nothing. -/
theorem State.append_output_nil (s : State) : { s with output := s.output ++ [] } = s := by
  rw [List.append_nil]

/-- An instruction that newly faults takes a fault it can raise in the state before it, but for the output a syscall 0
had appended (60_exceptions.md R305). -/
theorem exec_faulted {i : Instr} {s t : State} (hs : s.runState ≠ .faulted) (h : exec i s = .next t)
    (ht : t.runState = .faulted) :
    ∃ c more, FaultsWith i s c more ∧ t = { s with output := s.output ++ more }.raise c := by
  rcases exec_cases h with ⟨rfl, hsys⟩ | ⟨-, hpush⟩ | ⟨-, hpop⟩ | ⟨c, hc, rfl⟩ | ⟨-, hregs, -⟩
  · rcases hsys with ⟨hax, rfl⟩ | ⟨-, rfl⟩ | ⟨-, rfl⟩ | rfl
    · rcases sysWrite_cases s with ⟨_, -, e⟩ | ⟨chars, c, hw, e⟩
      · rw [e] at ht
        cases ht
      · exact ⟨c, chars, .inr (.inr ⟨rfl, hax, writeChars_fault (congrArg Prod.snd hw)⟩), e⟩
    · cases ht
    · exact absurd ht hs
    · exact ⟨_, [], .inr (.inl ⟨rfl, rfl, rfl⟩), by rw [s.append_output_nil]⟩
  · rcases hpush with ⟨-, rfl⟩ | ⟨-, rfl⟩ <;> exact absurd ht hs
  · rcases hpop with ⟨-, rfl⟩ | ⟨-, rfl⟩ <;> exact absurd ht hs
  · exact ⟨c, [], .inl ⟨hc, rfl⟩, by rw [s.append_output_nil]⟩
  · obtain ⟨hstate, -⟩ := hregs.status
    exact absurd (hstate.symm.trans ht) hs

/-- What an instruction raises is a fault, and never CAST_FAILURE (60_exceptions.md R302). -/
theorem FaultsWith.raisable {i : Instr} {s : State} {c : FaultCause} {more : List OutEvent}
    (h : FaultsWith i s c more) : c ≠ .none ∧ c ≠ .castFailure := by
  rcases h with ⟨⟨rfl, -⟩ | ⟨rfl, -⟩ | ⟨rfl, -⟩ | ⟨rfl, -⟩ | ⟨rfl, -⟩, -⟩ | ⟨-, rfl, -⟩ | ⟨-, -, ⟨_, rfl⟩ | ⟨_, rfl⟩⟩ <;>
    exact ⟨nofun, nofun⟩

/-- Only a syscall 0 that faults has output. -/
theorem FaultsWith.write_of_output {i : Instr} {s : State} {c : FaultCause} {more : List OutEvent}
    (h : FaultsWith i s c more) (hmore : more ≠ []) : i = .syscall ∧ s.ax = 0 := by
  rcases h with ⟨-, hnil⟩ | ⟨-, -, hnil⟩ | ⟨hi, hax, -⟩
  · exact absurd hnil hmore
  · exact absurd hnil hmore
  · exact ⟨hi, hax⟩

/-- Each fault code that an instruction can raise, with the instructions that raise it (60_exceptions.md R300). -/
theorem FaultsWith.code {i : Instr} {s : State} {c : FaultCause} {more : List OutEvent} (h : FaultsWith i s c more) :
    (c.code = 2 ∧ i = .syscall) ∨
    (c.code = 3 ∧ (i = .push ∨ i = .pop ∨ i = .call ∨ i = .ret ∨ (i = .syscall ∧ s.ax = 0))) ∨
    (c.code = 6 ∧ i = .div) ∨
    (c.code = 7 ∧ (i = .shl ∨ i = .shr)) ∨
    (c.code = 8 ∧ i = .deref) ∨
    (c.code = 9 ∧ i = .syscall ∧ s.ax = 0) := by
  rcases h with ⟨hraised, -⟩ | ⟨hi, rfl, -⟩ | ⟨hi, hax, ⟨_, rfl⟩ | ⟨_, rfl⟩⟩
  · rcases hraised with ⟨rfl, hi⟩ | ⟨rfl, hi⟩ | ⟨rfl, hi⟩ | ⟨rfl, hi⟩ | ⟨rfl, hi⟩
    · exact .inr (.inl ⟨rfl, by tauto⟩)
    · exact .inr (.inl ⟨rfl, by tauto⟩)
    · exact .inr (.inr (.inl ⟨rfl, hi⟩))
    · exact .inr (.inr (.inr (.inl ⟨rfl, hi⟩)))
    · exact .inr (.inr (.inr (.inr (.inl ⟨rfl, hi⟩))))
  · exact .inl ⟨rfl, hi⟩
  · exact .inr (.inl ⟨rfl, by tauto⟩)
  · exact .inr (.inr (.inr (.inr (.inr ⟨rfl, hi, hax⟩))))

/-! ## How a step faults -/

/-- A running step that faults changes nothing but the status and the output of a syscall 0, whether the fault comes at
the fetch or in the execution (60_exceptions.md R305); the cause is never CAST_FAILURE (R302). -/
theorem step_running_faulted {s t : State} (hr : s.runState = .running) (h : step s = .next t)
    (ht : t.runState = .faulted) :
    ∃ c more, c ≠ .none ∧ c ≠ .castFailure ∧ t = { s with output := s.output ++ more }.raise c ∧
      (more ≠ [] → s.mem.read s.ip.toNat = opcodeWord s.params.opcodeMap .syscall ∧ s.ax = 0) := by
  rcases step_running_cases hr h with ⟨-, rfl⟩ | ⟨-, i, hf, he⟩ | ⟨-, c, hc, rfl⟩
  · cases ht
  · obtain ⟨c, more, hfault, rfl⟩ := exec_faulted (by rw [hr]; nofun) he ht
    obtain ⟨hne, hcast⟩ := hfault.raisable
    refine ⟨c, more, hne, hcast, rfl, fun hmore => ?_⟩
    obtain ⟨rfl, hax⟩ := hfault.write_of_output hmore
    exact ⟨State.fetch_opcode hf, hax⟩
  · refine ⟨c, [], State.fetch_error_ne_none hc, ?_, by rw [s.append_output_nil], fun hnil => absurd rfl hnil⟩
    rcases State.fetch_error hc with ⟨_, rfl⟩ | ⟨_, rfl⟩ <;> nofun

/-- A core that waits for a line faults only on the line it takes, and keeps all else (46_syscall.md R213; log 27). -/
theorem State.completeReadLine_faulted {s : State} (hs : s.runState ≠ .faulted)
    (ht : s.completeReadLine.runState = .faulted) :
    ∃ a, s.completeReadLine = { s with lines := s.lines.tail }.raise (.outOfBounds a) := by
  rcases s.completeReadLine_cases with ⟨-, e⟩ | ⟨line, later, hl, -, -, e⟩ | ⟨_, _, -, -, e⟩
  · exact absurd (e ▸ ht) hs
  · exact ⟨_, by rw [e, hl]; rfl⟩
  · rw [e] at ht
    cases ht

/-! ## What a step leaves of FAULT_CAUSE -/

/-- No transaction of the host records CAST_FAILURE. -/
theorem State.takeCommand_ne_castFailure {s : State} (hs : s.faultCause ≠ .castFailure) :
    s.takeCommand.faultCause ≠ .castFailure := by
  rcases s.takeCommand_cases with ⟨-, e⟩ | ⟨c, later, -, e | ⟨-, _, _, -, -, e⟩ | ⟨-, _, _, -, -, e⟩ | ⟨-, -, e⟩⟩ <;>
    rw [e]
  case inr.inr.inl => nofun
  all_goals exact hs

/-- No running step records CAST_FAILURE: it leaves the cause, or faults with another (60_exceptions.md R302). -/
theorem step_running_ne_castFailure {s t : State} (hr : s.runState = .running) (hs : s.faultCause ≠ .castFailure)
    (h : step s = .next t) : t.faultCause ≠ .castFailure := by
  rcases step_running_recordsFault hr h with ⟨ht, -⟩ | ⟨-, e⟩
  · obtain ⟨c, more, -, hc, rfl, -⟩ := step_running_faulted hr h ht
    exact hc
  · rwa [e]

/-- No end of a write records CAST_FAILURE. -/
theorem State.completeWrite_ne_castFailure {s : State} (hs : s.faultCause ≠ .castFailure) :
    s.completeWrite.faultCause ≠ .castFailure := by
  rcases s.completeWrite_cases with ⟨-, e⟩ | ⟨_, -, e⟩ <;> rw [e] <;> exact hs

/-- No end of a read records CAST_FAILURE. -/
theorem State.completeReadLine_ne_castFailure {s : State} (hs : s.faultCause ≠ .castFailure) :
    s.completeReadLine.faultCause ≠ .castFailure := by
  rcases s.completeReadLine_cases with ⟨-, e⟩ | ⟨_, _, -, -, -, e⟩ | ⟨_, _, -, -, e⟩ <;> rw [e]
  · exact hs
  · nofun
  · exact hs

/-! ## What the host has yet to say -/

/-- The state with other lines, acknowledgements and transactions to come from the host (log 9). -/
def State.withAnswers (s : State) (ls : List (List Word)) (n : Nat) (cs : List Command) : State :=
  { s with lines := ls, acks := n, commands := cs }

/-- By less than 64, an instruction that ends in a shift writes `ax` and advances (43_bitwise.md R154, R155). -/
theorem exec_of_shift {i : Instr} {s : State} {v : Word} (hi : exec i s = s.settle (s.shift v))
    (hlt : s.bx.toNat < 64) : exec i s = .next (s.set .ax v).advance := by
  rcases s.shift_cases v with ⟨hge, -⟩ | ⟨-, e⟩
  · omega
  · rw [hi, e, State.settle_ok]

section withAnswers

variable {i : Instr} {s t u : State} {ls : List (List Word)} {n : Nat} {cs : List Command}

/-- The host's answers are no register. -/
theorem State.withAnswers_ax : (s.withAnswers ls n cs).ax = s.ax := rfl

/-- A register write and the advance leave the host's answers. -/
theorem State.withAnswers_set_advance (r : Reg) (v : Word) :
    ((s.withAnswers ls n cs).set r v).advance = (s.set r v).advance.withAnswers ls n cs := by
  cases r <;> rfl

/-- A conditional jump leaves the host's answers. -/
theorem State.withAnswers_jumpIf (taken : Bool) :
    (s.withAnswers ls n cs).jumpIf taken = (s.jumpIf taken).withAnswers ls n cs := by
  cases taken <;> rfl

/-- A Real written, or the draw in its place, leaves the host's answers. -/
theorem State.withAnswers_writeReal (r : Option Word) :
    (s.withAnswers ls n cs).writeReal r = (s.writeReal r).withAnswers ls n cs := by
  cases r <;> rfl

/-- Syscall 0 writes the same characters whatever the host has yet to say. -/
theorem sysWrite_withAnswers : sysWrite (s.withAnswers ls n cs) = (sysWrite s).withAnswers ls n cs := by
  simp only [sysWrite]
  rcases hw : writeChars s.params.memWords.toNat s.mem s.cx.toNat s.dx.toNat with ⟨chars, _ | c⟩ <;>
    simp only [State.withAnswers, hw]
  rfl

/-- Where the two runs of an instruction are known, they agree but for what the host has yet to say. -/
theorem withAnswers_of_next (hs : exec i s = .next u)
    (hw : exec i (s.withAnswers ls n cs) = .next (u.withAnswers ls n cs)) (h : exec i s = .next t) :
    exec i (s.withAnswers ls n cs) = .next (t.withAnswers ls n cs) := by
  cases hs.symm.trans h
  exact hw

/-- An instruction does the same whatever the host has yet to say (60_exceptions.md R313). -/
theorem exec_withAnswers (h : exec i s = .next t) :
    exec i (s.withAnswers ls n cs) = .next (t.withAnswers ls n cs) := by
  cases i
  case push =>
    rcases lt_or_ge (s.sp - 1).toNat s.params.memWords.toNat with hroom | hfull
    · exact withAnswers_of_next (exec_push_of_room hroom) (exec_push_of_room hroom) h
    · exact withAnswers_of_next (exec_push_of_full hfull) (exec_push_of_full hfull) h
  case call =>
    rcases lt_or_ge (s.sp - 1).toNat s.params.memWords.toNat with hroom | hfull
    · exact withAnswers_of_next (exec_call_of_room hroom) (exec_call_of_room hroom) h
    · exact withAnswers_of_next (exec_call_of_full hfull) (exec_call_of_full hfull) h
  case pop =>
    rcases lt_or_ge s.sp.toNat s.params.memWords.toNat with hword | hempty
    · exact withAnswers_of_next (exec_pop_of_word hword) (exec_pop_of_word hword) h
    · exact withAnswers_of_next (exec_pop_of_empty hempty) (exec_pop_of_empty hempty) h
  case ret =>
    rcases lt_or_ge s.sp.toNat s.params.memWords.toNat with hword | hempty
    · exact withAnswers_of_next (exec_ret_of_word hword) (exec_ret_of_word hword) h
    · exact withAnswers_of_next (exec_ret_of_empty hempty) (exec_ret_of_empty hempty) h
  case div =>
    rcases hd : divide s.params.defectMode s.ax s.bx with c | ⟨q, r⟩
    · exact withAnswers_of_next (exec_div_of_error hd) (exec_div_of_error hd) h
    · exact withAnswers_of_next (exec_div_of_ok hd) (exec_div_of_ok hd) h
  case shl | shr =>
    rcases lt_or_ge s.bx.toNat 64 with hlt | hge
    · exact withAnswers_of_next (exec_of_shift rfl hlt) (exec_of_shift rfl hlt) h
    · exact withAnswers_of_next (exec_of_shift_overflow rfl hge) (exec_of_shift_overflow rfl hge) h
  case syscall =>
    by_cases h0 : s.ax = 0
    · refine withAnswers_of_next (exec_syscall_of_zero h0) ?_ h
      rw [← sysWrite_withAnswers]
      exact exec_syscall_of_zero h0
    by_cases h1 : s.ax = 1
    · exact withAnswers_of_next (exec_syscall_of_one h1) (exec_syscall_of_one h1) h
    by_cases h2 : s.ax = 2
    · exact withAnswers_of_next (exec_syscall_of_two h2) (exec_syscall_of_two h2) h
    · exact withAnswers_of_next (exec_syscall_of_unknown h0 h1 h2) (exec_syscall_of_unknown h0 h1 h2) h
  case fadd | fsub | fmul | fdiv =>
    cases h
    exact congrArg (fun v => Host.Outcome.next v.advance) (State.withAnswers_writeReal _)
  case je | jne | jg | jge | jl | jle | ja | jae | jb | jbe | fjg | fjge | fjl | fjle =>
    cases h
    exact congrArg _ (State.withAnswers_jumpIf _)
  case cwtor =>
    rw [exec_cwtor] at h ⊢
    cases h
    rw [State.withAnswers_set_advance, State.withAnswers_ax]
  all_goals
    cases h
    rfl

end withAnswers

/-! ## The obligations -/

/-- Settles O8: the fetch faults, and every Word from 59 up is outside the default map. -/
theorem unknownOpcodeFaultsAtFetch : Obligations.UnknownOpcodeFaultsAtFetch := by
  intro s hr hip
  have hfault (hout : s.mem.read s.ip.toNat ∉ s.params.opcodeMap) :
      step s = .next (faulted s (.unknownOpcode (s.mem.read s.ip.toNat))) :=
    step_of_fetch_error hr hip (State.fetch_of_not_mem hout)
  refine ⟨hfault, fun hmap hop => hfault fun hmem => ?_⟩
  rw [hmap] at hmem
  exact absurd (toNat_lt_of_mem_defaultOpcodeMap hmem) (not_lt.2 hop)

/-- Settles O42, instruction by instruction. -/
theorem instructionsIgnorePendingHostAnswers : Obligations.InstructionsIgnorePendingHostAnswers :=
  fun _ _ _ _ _ _ h => exec_withAnswers h

/-- Settles O46: a running core faults at its fetch or in its instruction, a waiting one on its line. -/
theorem faultsArePrecise : Obligations.FaultsArePrecise := by
  intro s t hrun h ht
  refine ⟨?_, finalStatesStay t (.inr ht)⟩
  rcases hrun with hr | hb
  · obtain ⟨c, more, hc, -, rfl, hmore⟩ := step_running_faulted hr h ht
    exact ⟨c, more, hc, rfl, hmore, by rw [if_neg (by rw [hr]; nofun)]; rfl⟩
  · rw [step_blockedIn hb] at h
    cases h
    obtain ⟨a, e⟩ := State.completeReadLine_faulted (by rw [hb]; nofun) ht
    rw [e, if_pos hb]
    exact ⟨.outOfBounds a, [], nofun, by rw [List.append_nil]; rfl, fun hnil => absurd rfl hnil, rfl⟩

/-- Settles O47, by the causes an instruction can raise. -/
theorem faultCausesByInstruction : Obligations.FaultCausesByInstruction := by
  intro i s t hs h ht
  obtain ⟨c, more, hfault, rfl⟩ := exec_faulted hs h ht
  exact hfault.code

/-- Settles O48, by the kind of step. -/
theorem castFailureIsNeverRaised : Obligations.CastFailureIsNeverRaised := by
  intro s t hs h
  rcases step_cases h with ⟨-, rfl⟩ | hr | ⟨-, rfl⟩ | ⟨-, rfl⟩ | ⟨-, rfl⟩
  · exact State.takeCommand_ne_castFailure hs
  · exact step_running_ne_castFailure hr hs h
  · exact State.completeWrite_ne_castFailure hs
  · exact State.completeReadLine_ne_castFailure hs
  · exact hs

end Sys2Proof.Machine

/-! # Reset and hazards (70_reset_and_hazards.md)

The steps that take a `load` or a `start`, the first steps of a run from power-up, the states in which the pending
transactions are not read, and the image file. -/

namespace Sys2Proof.Machine

open Sys2Proof.Claims

/-! ## Taking a transaction -/

section waiting

variable {s : State} {words : List Word} {entry : Word} {later : List Command}

/-- In RESET a step takes the host's next transaction (70_reset_and_hazards.md R330). -/
theorem step_reset (h : s.runState = .reset) : step s = .next s.takeCommand := by rw [step, h]

/-- In LOADED a step takes the host's next transaction (70_reset_and_hazards.md R331). -/
theorem step_loaded (h : s.runState = .loaded) : step s = .next s.takeCommand := by rw [step, h]

/-- A `load` outside RESET is ignored (70_reset_and_hazards.md R330). -/
theorem State.load_of_not_reset (h : s.runState ≠ .reset) : s.load words entry = s := if_pos h

/-- A `start` outside LOADED is ignored (70_reset_and_hazards.md R331). -/
theorem State.start_of_not_loaded (h : s.runState ≠ .loaded) : s.start = s := if_pos h

/-- A `load` of an image that fits, in RESET (70_reset_and_hazards.md R330). -/
theorem step_load (hr : s.runState = .reset) (hc : s.commands = .load words entry :: later)
    (hfit : words.length ≤ s.params.memWords.toNat) :
    step s = .next { s with
      commands := later, mem := s.mem.writeList 0 words, ip := entry, runState := .loaded } := by
  rw [step_reset hr, State.takeCommand, hc]
  simp only [State.command, State.load, hr, ne_eq, not_true_eq_false, if_false, if_neg (not_lt.2 hfit)]

/-- A `load` of an image that does not fit, in RESET (60_exceptions.md R310). -/
theorem step_load_tooLarge (hr : s.runState = .reset) (hc : s.commands = .load words entry :: later)
    (hlarge : s.params.memWords.toNat < words.length) :
    step s = .next (faulted { s with commands := later } (.imageTooLarge words.length)) := by
  rw [step_reset hr, State.takeCommand, hc]
  simp only [State.command, State.load, hr, ne_eq, not_true_eq_false, if_false, if_pos hlarge]
  rfl

/-- A `load` in LOADED is used up (log 19). -/
theorem step_load_ignored (hl : s.runState = .loaded) (hc : s.commands = .load words entry :: later) :
    step s = .next { s with commands := later } := by
  rw [step_loaded hl, State.takeCommand, hc]
  exact congrArg _ (State.load_of_not_reset (by rw [hl]; nofun))

/-- A `start` in LOADED (70_reset_and_hazards.md R331). -/
theorem step_start (hl : s.runState = .loaded) (hc : s.commands = .start :: later) :
    step s = .next { s with
      commands := later, sp := s.params.memWords, fp := s.params.memWords,
      lp := s.params.memWords - 1, runState := .running } := by
  rw [step_loaded hl, State.takeCommand_of_start hl hc]

/-- A `start` in RESET is used up (log 19). -/
theorem step_start_ignored (hr : s.runState = .reset) (hc : s.commands = .start :: later) :
    step s = .next { s with commands := later } := by
  rw [step_reset hr, State.takeCommand, hc]
  exact congrArg _ (State.start_of_not_loaded (by rw [hr]; nofun))

end waiting

/-! ## An image in memory -/

/-- A Word of an image stands at its position after the image was written from 0 up. -/
theorem Memory.read_image_of_getElem? {words : List Word} {k : Nat} {w : Word} (h : words[k]? = some w) (m : Memory) :
    (m.writeList 0 words).read k = w := by
  rw [← Memory.read_writeList_of_getElem? h m 0, Nat.zero_add]

/-- Beyond an image memory is what it was (70_reset_and_hazards.md R332). -/
theorem Memory.read_beyond_image {words : List Word} {a : Nat} (h : words.length ≤ a) (m : Memory) :
    (m.writeList 0 words).read a = m.read a := by
  by_contra hne
  obtain ⟨-, hlt⟩ := Memory.range_of_read_writeList_ne hne
  omega

/-! ## States that do not read the transactions -/

section ignoresCommands

variable {s u : State}

/-- Where the step is known whatever the pending transactions, they are not read. -/
theorem ignoresCommands_of_next (hs : step s = .next u)
    (hw : ∀ cs, step { s with commands := cs } = .next { u with commands := cs }) : ignoresCommands s := by
  intro t cs h
  cases hs.symm.trans h
  exact hw cs

/-- A running step does not read the pending transactions (log 19). -/
theorem ignoresCommands_of_running (hr : s.runState = .running) : ignoresCommands s := by
  intro t cs h
  have hr' : { s with commands := cs }.runState = .running := hr
  rcases step_running_cases hr h with ⟨hend, rfl⟩ | ⟨hip, i, hf, he⟩ | ⟨hip, c, hc, rfl⟩
  · exact step_of_ip_past_memory hr' hend
  · obtain ⟨hlines, hacks, -⟩ := exec_sameHostAnswers he
    have hexec := exec_withAnswers (ls := s.lines) (n := s.acks) (cs := cs) he
    have ht : t.withAnswers s.lines s.acks cs = { t with commands := cs } := by rw [← hlines, ← hacks]; rfl
    rw [ht] at hexec
    exact (step_of_fetch_ok hr' hip hf).trans hexec
  · exact step_of_fetch_error hr' hip hc

/-- A step in BLOCKED_OUT does not read the pending transactions (log 19). -/
theorem ignoresCommands_of_blockedOut (hb : s.runState = .blockedOut) : ignoresCommands s := by
  cases ha : s.acks with
  | zero => exact ignoresCommands_of_next (step_blockedOut_of_no_ack hb ha) fun _ => step_blockedOut_of_no_ack hb ha
  | succ n => exact ignoresCommands_of_next (step_blockedOut_of_ack hb ha) fun _ => step_blockedOut_of_ack hb ha

/-- A step in BLOCKED_IN does not read the pending transactions (log 19). -/
theorem ignoresCommands_of_blockedIn (hb : s.runState = .blockedIn) : ignoresCommands s := by
  cases hl : s.lines with
  | nil => exact ignoresCommands_of_next (step_blockedIn_of_no_line hb hl) fun _ => step_blockedIn_of_no_line hb hl
  | cons line later =>
    by_cases hfit : line.length = 0 ∨ s.dx.toNat + line.length - 1 < s.params.memWords.toNat
    · exact ignoresCommands_of_next (step_blockedIn_of_fits hb hl hfit) fun _ => step_blockedIn_of_fits hb hl hfit
    · exact ignoresCommands_of_next (step_blockedIn_of_overflow hb hl hfit) fun _ =>
        step_blockedIn_of_overflow hb hl hfit

/-- No step from a final state reads the pending transactions (log 11). -/
theorem ignoresCommands_of_final (hf : s.runState = .halted ∨ s.runState = .faulted) : ignoresCommands s :=
  ignoresCommands_of_next (finalStatesStay s hf) fun _ => finalStatesStay _ hf

/-- Only RESET and LOADED read the pending transactions (log 19). -/
theorem ignoresCommands_of_not_waiting (hreset : s.runState ≠ .reset) (hloaded : s.runState ≠ .loaded) :
    ignoresCommands s := by
  cases hr : s.runState with
  | reset => exact absurd hr hreset
  | loaded => exact absurd hr hloaded
  | running => exact ignoresCommands_of_running hr
  | blockedOut => exact ignoresCommands_of_blockedOut hr
  | blockedIn => exact ignoresCommands_of_blockedIn hr
  | halted => exact ignoresCommands_of_final (.inl hr)
  | faulted => exact ignoresCommands_of_final (.inr hr)

end ignoresCommands

/-! ## The image file -/

/-- The bytes of a Word, most significant first, are the Word (70_reset_and_hazards.md R334). -/
theorem append_bytes (w : Word) :
    w.extractLsb' 56 8 ++ w.extractLsb' 48 8 ++ w.extractLsb' 40 8 ++ w.extractLsb' 32 8 ++
      w.extractLsb' 24 8 ++ w.extractLsb' 16 8 ++ w.extractLsb' 8 8 ++ w.extractLsb' 0 8 = w := by
  have join (a n : Nat) : w.extractLsb' (a + 8) n ++ w.extractLsb' a 8 = w.extractLsb' a (n + 8) :=
    BitVec.extractLsb'_append_extractLsb'_eq_extractLsb' rfl
  rw [join 48, join 40, join 32, join 24, join 16, join 8, join 0]
  exact BitVec.extractLsb'_eq_self

/-- Reading the bytes of Words gives the Words back. -/
theorem fileWords_flatMap_wordBytes (words : List Word) : fileWords (words.flatMap wordBytes) = some words := by
  induction words with
  | nil => rfl
  | cons w words ih =>
    rw [List.flatMap_cons]
    simp only [wordBytes, List.cons_append, List.nil_append, fileWords]
    rw [append_bytes, ih]
    rfl

/-- The file of Words has eight bytes for each. -/
theorem length_flatMap_wordBytes (words : List Word) : (words.flatMap wordBytes).length = 8 * words.length := by
  induction words with
  | nil => rfl
  | cons w words ih =>
    rw [List.flatMap_cons, List.length_append, ih, List.length_cons, Nat.mul_succ, Nat.add_comm]
    rfl

/-! ## The obligations -/

/-- Settles O54: the image fits or it does not; elsewhere the `load` is ignored. -/
theorem loadCopiesTheImage : Obligations.LoadCopiesTheImage := by
  refine ⟨fun s words entry later hr hc => ?_, fun _ _ _ => State.load_of_not_reset, fun _ _ _ _ => step_load_ignored,
    fun _ => ignoresCommands_of_not_waiting⟩
  split
  · next hfit =>
    exact ⟨_, step_load hr hc hfit, rfl, fun k w hk => Memory.read_image_of_getElem? hk _,
      fun a ha => Memory.read_beyond_image ha _⟩
  · next hlarge => exact step_load_tooLarge hr hc (not_le.1 hlarge)

/-- Settles O56: the two steps, and what they leave. -/
theorem stateAtFirstFetch : Obligations.StateAtFirstFetch := by
  intro s words entry later hr hcause hout hc hfit
  exact ⟨_, _, step_load hr hc hfit, step_start rfl rfl, rfl, rfl, rfl, rfl, rfl, rfl, rfl, rfl,
    fun k w hk => Memory.read_image_of_getElem? hk _, fun a ha => Memory.read_beyond_image ha _, rfl, hcause, hout⟩

/-- Settles O57: after the two steps the terminal check comes before any fetch. -/
theorem entryBeyondMemoryHaltsAtOnce : Obligations.EntryBeyondMemoryHaltsAtOnce := by
  intro s words entry later hr hc hfit hentry
  exact ⟨_, _, _, step_load hr hc hfit, step_start rfl rfl, step_of_ip_past_memory rfl hentry, ⟨rfl, rfl⟩, rfl, rfl⟩

/-- Settles O60: the entry point is the first Word of the file. -/
theorem imageFileRoundTrips : Obligations.ImageFileRoundTrips := by
  intro entry words
  refine ⟨?_, length_flatMap_wordBytes (entry :: words)⟩
  rw [readImage, imageBytes, fileWords_flatMap_wordBytes]

/-- Settles O53; the parameters by the invariant at power-up. -/
theorem powerUpState : Obligations.PowerUpState :=
  ⟨rfl, rfl, rfl, rfl, rfl, invariantHoldsAtPowerUp.params⟩

/-- Settles O55, state by state. -/
theorem startSetsThePointers : Obligations.StartSetsThePointers :=
  ⟨fun _ _ => step_start, fun _ => State.start_of_not_loaded, fun _ _ => step_start_ignored,
    fun _ => ignoresCommands_of_not_waiting⟩

end Sys2Proof.Machine
